-- ==== Sys2Proof/Word.lean ====
section
/-! DEFINITION. The word types of ZKTC-EMU CORE (00_scope.md R4, R6): bit 0 is the least significant bit. -/

namespace Sys2Proof

/-- One addressed memory cell: 8 bits (R30). -/
abbrev Byte := BitVec 8

/-- XLEN: the general registers, `pc`, `sp`, every 16-bit control register, an address, an instruction word (R4). -/
abbrev Word := BitVec 16

/-- The width of the timer register `tr` (R18). -/
abbrev DWord := BitVec 32

end Sys2Proof
end

