-- ==== Sys2Proof/Syntax.lean ====
section
/-! DEFINITION. The instruction set as syntax: the 45 instructions of R56, one constructor each, with the operands of
their formats (R52). Register numbers are names and immediates have exactly their field's width (R51), so that every
term of `Instr` is an instruction some word encodes. Bits the decoder ignores (R60) are no part of an instruction. -/

namespace Sys2Proof

/-- The eight general registers, selected by a 3-bit number (R10). -/
inductive Reg where
  | x0 | x1 | x2 | x3 | x4 | x5 | x6 | x7
deriving DecidableEq, Repr

/-- The 5-bit immediate field, bits 15:11 (R51). -/
abbrev Imm5 := BitVec 5

/-- The 8-bit immediate field, bits 15:8 (R51). -/
abbrev Imm8 := BitVec 8

/-- The 45 instructions, in the order of R56. The rule named at each gives its meaning. -/
inductive Instr where
  /-- R73 -/
  | mov (rd rs : Reg)
  /-- R74 -/
  | add (rd rs : Reg)
  /-- R75 -/
  | sub (rd rs : Reg)
  /-- R76 -/
  | and (rd rs : Reg)
  /-- R77 -/
  | or (rd rs : Reg)
  /-- R78 -/
  | xor (rd rs : Reg)
  /-- R79 -/
  | sll (rd rs : Reg)
  /-- R80 -/
  | srl (rd rs : Reg)
  /-- R81 -/
  | sra (rd rs : Reg)
  /-- R84 -/
  | addi (rd rs : Reg) (imm : Imm5)
  /-- R85 -/
  | subi (rd rs : Reg) (imm : Imm5)
  /-- R89 -/
  | beq (rd rs : Reg) (imm : Imm5)
  /-- R90 -/
  | bnq (rd rs : Reg) (imm : Imm5)
  /-- R91 -/
  | blt (rd rs : Reg) (imm : Imm5)
  /-- R92 -/
  | bge (rd rs : Reg) (imm : Imm5)
  /-- R93 -/
  | bltu (rd rs : Reg) (imm : Imm5)
  /-- R94 -/
  | bgeu (rd rs : Reg) (imm : Imm5)
  /-- R95 -/
  | jalr (rd rs : Reg) (imm : Imm5)
  /-- R102 -/
  | lh (rd rs : Reg) (imm : Imm5)
  /-- R103 -/
  | lhu (rd rs : Reg) (imm : Imm5)
  /-- R104 -/
  | lw (rd rs : Reg) (imm : Imm5)
  /-- R105 -/
  | sh (rd rs : Reg) (imm : Imm5)
  /-- R106 -/
  | sw (rd rs : Reg) (imm : Imm5)
  /-- R96 -/
  | jal (rd : Reg) (imm : Imm8)
  /-- R111 -/
  | lil (rd : Reg) (imm : Imm8)
  /-- R112 -/
  | lih (rd : Reg) (imm : Imm8)
  /-- R115 -/
  | push (rd : Reg)
  /-- R116 -/
  | pop (rd : Reg)
  /-- R117 -/
  | rpc (rd : Reg)
  /-- R118 -/
  | rsp (rd : Reg)
  /-- R119 -/
  | rpsr (rd : Reg)
  /-- R120 -/
  | rtlr (rd : Reg)
  /-- R121 -/
  | rthr (rd : Reg)
  /-- R122 -/
  | rppc (rd : Reg)
  /-- R123 -/
  | rppsr (rd : Reg)
  /-- R124 -/
  | wsp (rd : Reg)
  /-- R125 -/
  | wpsr (rd : Reg)
  /-- R126 -/
  | wtlr (rd : Reg)
  /-- R127 -/
  | wthr (rd : Reg)
  /-- R128 -/
  | wppc (rd : Reg)
  /-- R129 -/
  | wppsr (rd : Reg)
  /-- R136 -/
  | rfi
  /-- R137 -/
  | rtr
  /-- R138 -/
  | wtr
  /-- R139 -/
  | trap
deriving DecidableEq, Repr

end Sys2Proof
end

