-- ==== Sys2Proof/Decode.lean ====
section
/-! DEFINITION. The instruction encoding ZKTC-EMU-ENC-1: the fields of a word (R51), the decoder in the order of R54,
the opcode map with its match and mask words (R56), and the encoder (R65). Every numeric opcode and func value is the
spec's decision D1 (UNVERIFIED, notes/assumptions/1.md); the semantics never mentions one. -/

namespace Sys2Proof

/-- Why a word is no instruction. -/
inductive Reject where
  /-- The word `0x0000`, which ends the step before anything is decoded (R61). -/
  | debugSentinel
  /-- No instruction has this word (R54, R59). -/
  | unknown (w : Word)
  /-- Fewer than the two bytes an instruction takes (R50). -/
  | truncated
deriving DecidableEq, Repr

/-- The register a 3-bit number selects (R10). -/
def Reg.ofBits (b : BitVec 3) : Reg :=
  match b.toNat with
  | 0 => .x0
  | 1 => .x1
  | 2 => .x2
  | 3 => .x3
  | 4 => .x4
  | 5 => .x5
  | 6 => .x6
  | _ => .x7

/-- A register's 3-bit number (R10). -/
def Reg.bits : Reg → BitVec 3
  | .x0 => 0
  | .x1 => 1
  | .x2 => 2
  | .x3 => 3
  | .x4 => 4
  | .x5 => 5
  | .x6 => 6
  | .x7 => 7

/-- `opcode = w[4:0]` (R51). -/
def opcodeField (w : Word) : BitVec 5 := w.extractLsb' 0 5

/-- `rd = w[7:5]` (R51). -/
def rdField (w : Word) : BitVec 3 := w.extractLsb' 5 3

/-- `rs = w[10:8]` (R51). -/
def rsField (w : Word) : BitVec 3 := w.extractLsb' 8 3

/-- `func = imm5 = w[15:11]` (R51). -/
def funcField (w : Word) : BitVec 5 := w.extractLsb' 11 5

/-- `imm8 = w[15:8]` (R51). -/
def imm8Field (w : Word) : Imm8 := w.extractLsb' 8 8

/-- R class: `opcode = 00000`, selected by `func` (R54 step 3, R56 rows 1 to 9). -/
def decodeR (func : Nat) (rd rs : Reg) : Option Instr :=
  match func with
  | 1 => some (.mov rd rs)
  | 2 => some (.add rd rs)
  | 3 => some (.sub rd rs)
  | 4 => some (.and rd rs)
  | 5 => some (.or rd rs)
  | 6 => some (.xor rd rs)
  | 7 => some (.sll rd rs)
  | 8 => some (.srl rd rs)
  | 9 => some (.sra rd rs)
  | _ => none

/-- C1 class: `opcode = 10010`, selected by `func`; bits 10:8 are not looked at (R54 step 5, R56 rows 27 to 41, R60). -/
def decodeC1 (func : Nat) (rd : Reg) : Option Instr :=
  match func with
  | 1 => some (.push rd)
  | 2 => some (.pop rd)
  | 3 => some (.rpc rd)
  | 4 => some (.rsp rd)
  | 5 => some (.rpsr rd)
  | 6 => some (.rtlr rd)
  | 7 => some (.rthr rd)
  | 8 => some (.rppc rd)
  | 9 => some (.rppsr rd)
  | 10 => some (.wsp rd)
  | 11 => some (.wpsr rd)
  | 12 => some (.wtlr rd)
  | 13 => some (.wthr rd)
  | 14 => some (.wppc rd)
  | 15 => some (.wppsr rd)
  | _ => none

/-- C2 class: `opcode = 10011`, selected by `func`; bits 10:5 are not looked at (R54 step 6, R56 rows 42 to 44, R60). -/
def decodeC2 (func : Nat) : Option Instr :=
  match func with
  | 1 => some .rfi
  | 2 => some .rtr
  | 3 => some .wtr
  | _ => none

/-- The classes by `opcode` (R54 steps 3 to 8). `trap` is the whole word `0xFFFF`, not an opcode (R58). -/
def decodeFields (w : Word) : Option Instr :=
  let rd := Reg.ofBits (rdField w)
  let rs := Reg.ofBits (rsField w)
  let imm5 : Imm5 := funcField w
  let imm8 := imm8Field w
  match (opcodeField w).toNat with
  | 0 => decodeR (funcField w).toNat rd rs
  | 1 => some (.addi rd rs imm5)
  | 2 => some (.subi rd rs imm5)
  | 3 => some (.beq rd rs imm5)
  | 4 => some (.bnq rd rs imm5)
  | 5 => some (.blt rd rs imm5)
  | 6 => some (.bge rd rs imm5)
  | 7 => some (.bltu rd rs imm5)
  | 8 => some (.bgeu rd rs imm5)
  | 9 => some (.jalr rd rs imm5)
  | 10 => some (.lh rd rs imm5)
  | 11 => some (.lhu rd rs imm5)
  | 12 => some (.lw rd rs imm5)
  | 13 => some (.sh rd rs imm5)
  | 14 => some (.sw rd rs imm5)
  | 15 => some (.jal rd imm8)
  | 16 => some (.lil rd imm8)
  | 17 => some (.lih rd imm8)
  | 18 => decodeC1 (funcField w).toNat rd
  | 19 => decodeC2 (funcField w).toNat
  | _ => if w = 0xFFFF then some .trap else none

/-- The decoder of one fetched word, in the order of R54: the zero word first. Total: each word has one outcome (R55). -/
def decodeWord (w : Word) : Except Reject Instr :=
  if w = 0x0000 then .error .debugSentinel
  else
    match decodeFields w with
    | some i => .ok i
    | none => .error (.unknown w)

/-- The word two bytes in memory make: the first is bits 7:0, the second bits 15:8 (R34, R50). -/
def wordOfBytes (lo hi : Byte) : Word := hi ++ lo

/-- Bits 7:0 of a word: the byte at the lower address (R34). -/
def lowByte (w : Word) : Byte := w.extractLsb' 0 8

/-- Bits 15:8 of a word: the byte at the next address (R34). -/
def highByte (w : Word) : Byte := w.extractLsb' 8 8

/-- Decoding a sequence of bytes: one instruction and the bytes after it. Every instruction is two bytes (R50). -/
def decode : List Byte → Except Reject (Instr × List Byte)
  | lo :: hi :: rest =>
    match decodeWord (wordOfBytes lo hi) with
    | .ok i => .ok (i, rest)
    | .error e => .error e
  | [_] => .error .truncated
  | [] => .error .truncated

/-- What the decoder reads from a word of `nbits` bits given as a number; the bits above `nbits` are zero. -/
def decodeTableWord (nbits w : Nat) : Option Instr :=
  let word : Word := BitVec.ofNat 16 (w % 2 ^ nbits)
  match decode [lowByte word, highByte word] with
  | .ok (i, _) => some i
  | .error _ => none

/-! The encoder (R65). -/

/-- R and I5: `func` or `imm5`, `rs`, `rd`, `opcode` from bit 15 down (R52). -/
def packRI (func : BitVec 5) (rs rd : Reg) (opcode : BitVec 5) : Word := func ++ rs.bits ++ rd.bits ++ opcode

/-- I8: `imm8`, `rd`, `opcode` from bit 15 down (R52). -/
def packI8 (imm : Imm8) (rd : Reg) (opcode : BitVec 5) : Word := imm ++ rd.bits ++ opcode

/-- C1: bits 10:8, the place of `rs`, zero (R60, R65). -/
def packC1 (func : BitVec 5) (rd : Reg) : Word := packRI func .x0 rd 18

/-- C2: bits 10:5, the places of `rs` and `rd`, zero (R60, R65). -/
def packC2 (func : BitVec 5) : Word := packRI func .x0 .x0 19

/-- The canonical word of an instruction (R65, with the numbers of R56). -/
def encode : Instr → Word
  | .mov rd rs => packRI 1 rs rd 0
  | .add rd rs => packRI 2 rs rd 0
  | .sub rd rs => packRI 3 rs rd 0
  | .and rd rs => packRI 4 rs rd 0
  | .or rd rs => packRI 5 rs rd 0
  | .xor rd rs => packRI 6 rs rd 0
  | .sll rd rs => packRI 7 rs rd 0
  | .srl rd rs => packRI 8 rs rd 0
  | .sra rd rs => packRI 9 rs rd 0
  | .addi rd rs imm => packRI imm rs rd 1
  | .subi rd rs imm => packRI imm rs rd 2
  | .beq rd rs imm => packRI imm rs rd 3
  | .bnq rd rs imm => packRI imm rs rd 4
  | .blt rd rs imm => packRI imm rs rd 5
  | .bge rd rs imm => packRI imm rs rd 6
  | .bltu rd rs imm => packRI imm rs rd 7
  | .bgeu rd rs imm => packRI imm rs rd 8
  | .jalr rd rs imm => packRI imm rs rd 9
  | .lh rd rs imm => packRI imm rs rd 10
  | .lhu rd rs imm => packRI imm rs rd 11
  | .lw rd rs imm => packRI imm rs rd 12
  | .sh rd rs imm => packRI imm rs rd 13
  | .sw rd rs imm => packRI imm rs rd 14
  | .jal rd imm => packI8 imm rd 15
  | .lil rd imm => packI8 imm rd 16
  | .lih rd imm => packI8 imm rd 17
  | .push rd => packC1 1 rd
  | .pop rd => packC1 2 rd
  | .rpc rd => packC1 3 rd
  | .rsp rd => packC1 4 rd
  | .rpsr rd => packC1 5 rd
  | .rtlr rd => packC1 6 rd
  | .rthr rd => packC1 7 rd
  | .rppc rd => packC1 8 rd
  | .rppsr rd => packC1 9 rd
  | .wsp rd => packC1 10 rd
  | .wpsr rd => packC1 11 rd
  | .wtlr rd => packC1 12 rd
  | .wthr rd => packC1 13 rd
  | .wppc rd => packC1 14 rd
  | .wppsr rd => packC1 15 rd
  | .rfi => packC2 1
  | .rtr => packC2 2
  | .wtr => packC2 3
  | .trap => 0xFFFF

/-- The two bytes an instruction takes in memory, lower address first (R50). -/
def encodeBytes (i : Instr) : List Byte := [lowByte (encode i), highByte (encode i)]

/-! The opcode map as the spec prints it (R56): an independent transcription, by match and mask words, which the
decoder and the encoder above are held against. -/

/-- One row of the opcode map. `number` is the row's place in the table. -/
structure OpRow where
  number : Nat
  mnemonic : String
  bits : Word
  mask : Word
deriving DecidableEq, Repr

/-- "a word `w` is the instruction iff `w & mask = match` (after the `0x0000` test of rule R54 step 1)" (R56). -/
def OpRow.covers (row : OpRow) (w : Word) : Bool := decide (w ≠ 0) && decide (w &&& row.mask = row.bits)

/-- Rows 1 to 9 of R56. -/
def opcodeMapR : List OpRow :=
  [⟨1, "mov", 0x0800, 0xF81F⟩, ⟨2, "add", 0x1000, 0xF81F⟩, ⟨3, "sub", 0x1800, 0xF81F⟩,
   ⟨4, "and", 0x2000, 0xF81F⟩, ⟨5, "or", 0x2800, 0xF81F⟩, ⟨6, "xor", 0x3000, 0xF81F⟩,
   ⟨7, "sll", 0x3800, 0xF81F⟩, ⟨8, "srl", 0x4000, 0xF81F⟩, ⟨9, "sra", 0x4800, 0xF81F⟩]

/-- Rows 10 to 26 of R56. -/
def opcodeMapI : List OpRow :=
  [⟨10, "addi", 0x0001, 0x001F⟩, ⟨11, "subi", 0x0002, 0x001F⟩, ⟨12, "beq", 0x0003, 0x001F⟩,
   ⟨13, "bnq", 0x0004, 0x001F⟩, ⟨14, "blt", 0x0005, 0x001F⟩, ⟨15, "bge", 0x0006, 0x001F⟩,
   ⟨16, "bltu", 0x0007, 0x001F⟩, ⟨17, "bgeu", 0x0008, 0x001F⟩, ⟨18, "jalr", 0x0009, 0x001F⟩,
   ⟨19, "lh", 0x000A, 0x001F⟩, ⟨20, "lhu", 0x000B, 0x001F⟩, ⟨21, "lw", 0x000C, 0x001F⟩,
   ⟨22, "sh", 0x000D, 0x001F⟩, ⟨23, "sw", 0x000E, 0x001F⟩, ⟨24, "jal", 0x000F, 0x001F⟩,
   ⟨25, "lil", 0x0010, 0x001F⟩, ⟨26, "lih", 0x0011, 0x001F⟩]

/-- Rows 27 to 45 of R56. -/
def opcodeMapC : List OpRow :=
  [⟨27, "push", 0x0812, 0xF81F⟩, ⟨28, "pop", 0x1012, 0xF81F⟩, ⟨29, "rpc", 0x1812, 0xF81F⟩,
   ⟨30, "rsp", 0x2012, 0xF81F⟩, ⟨31, "rpsr", 0x2812, 0xF81F⟩, ⟨32, "rtlr", 0x3012, 0xF81F⟩,
   ⟨33, "rthr", 0x3812, 0xF81F⟩, ⟨34, "rppc", 0x4012, 0xF81F⟩, ⟨35, "rppsr", 0x4812, 0xF81F⟩,
   ⟨36, "wsp", 0x5012, 0xF81F⟩, ⟨37, "wpsr", 0x5812, 0xF81F⟩, ⟨38, "wtlr", 0x6012, 0xF81F⟩,
   ⟨39, "wthr", 0x6812, 0xF81F⟩, ⟨40, "wppc", 0x7012, 0xF81F⟩, ⟨41, "wppsr", 0x7812, 0xF81F⟩,
   ⟨42, "rfi", 0x0813, 0xF81F⟩, ⟨43, "rtr", 0x1013, 0xF81F⟩, ⟨44, "wtr", 0x1813, 0xF81F⟩,
   ⟨45, "trap", 0xFFFF, 0xFFFF⟩]

/-- The complete instruction list (R56). -/
def opcodeMap : List OpRow := opcodeMapR ++ opcodeMapI ++ opcodeMapC

/-- The row of R56 an instruction belongs to. -/
def Instr.rowNumber : Instr → Nat
  | .mov _ _ => 1
  | .add _ _ => 2
  | .sub _ _ => 3
  | .and _ _ => 4
  | .or _ _ => 5
  | .xor _ _ => 6
  | .sll _ _ => 7
  | .srl _ _ => 8
  | .sra _ _ => 9
  | .addi _ _ _ => 10
  | .subi _ _ _ => 11
  | .beq _ _ _ => 12
  | .bnq _ _ _ => 13
  | .blt _ _ _ => 14
  | .bge _ _ _ => 15
  | .bltu _ _ _ => 16
  | .bgeu _ _ _ => 17
  | .jalr _ _ _ => 18
  | .lh _ _ _ => 19
  | .lhu _ _ _ => 20
  | .lw _ _ _ => 21
  | .sh _ _ _ => 22
  | .sw _ _ _ => 23
  | .jal _ _ => 24
  | .lil _ _ => 25
  | .lih _ _ => 26
  | .push _ => 27
  | .pop _ => 28
  | .rpc _ => 29
  | .rsp _ => 30
  | .rpsr _ => 31
  | .rtlr _ => 32
  | .rthr _ => 33
  | .rppc _ => 34
  | .rppsr _ => 35
  | .wsp _ => 36
  | .wpsr _ => 37
  | .wtlr _ => 38
  | .wthr _ => 39
  | .wppc _ => 40
  | .wppsr _ => 41
  | .rfi => 42
  | .rtr => 43
  | .wtr => 44
  | .trap => 45

end Sys2Proof
end

