-- ==== Sys2Proof/Config.lean ====
section
/-! DEFINITION. What is fixed for one machine: the sizes and boot values the source states (R4), and the two free
inputs of its configuration, the memory images (R5, R33). There is no free value: the spec leaves no result open. -/

namespace Sys2Proof.Config

/-- Bytes in the RAM region and in the ROM region (R32). -/
def regionSize : Nat := 32768

/-- Boot value of `pc`: the ROM base address (R26). -/
def bootPc : Word := 0x8000

/-- Boot value of `sp` (R26). -/
def bootSp : Word := 0x0000

/-- The two byte sequences the machine is constructed from (R33). Byte `i` of an image goes to offset `i` of its
region. Whether an image fits its region is `Images.wf` (WellFormed.lean). -/
structure Images where
  rom : List Byte
  ram : List Byte
deriving DecidableEq, Repr

/-- Both images empty: every byte of memory is zero padding (R33). -/
def Images.empty : Images := ⟨[], []⟩

end Sys2Proof.Config
end

