-- ==== Sys2Proof/Machine/State.lean ====
section
/-! DEFINITION. The architectural state (R29) as plain data, its reset value (R26 to R28, R170), and the reasons a step
can end without a next state (R146). -/

namespace Sys2Proof.Machine

/-- The 65536 bytes of RAM and ROM (R29 to R32) as (address, byte) pairs: addresses strictly rising, no listed byte equal
to what an unlisted address reads as (`Memory.unlisted`, zero padding, R33). -/
abbrev Memory := List Host.Cell

/-- `x1` to `x7` (R10). `x0` is hard-wired to zero and has no storage (R11). -/
structure Regs where
  x1 : Word
  x2 : Word
  x3 : Word
  x4 : Word
  x5 : Word
  x6 : Word
  x7 : Word
deriving DecidableEq, Repr

/-- "The complete architectural state" (R29): the general registers, the program counter (R13), the stack pointer (R16),
the status register (R17), the timer register and its staging halves (R18, R19), the trap save registers (R20), memory. -/
structure State where
  regs : Regs
  pc : Word
  sp : Word
  psr : Word
  tr : DWord
  tlr : Word
  thr : Word
  ppc : Word
  ppsr : Word
  mem : Memory
deriving DecidableEq, Repr

/-- Every general register zero (R27; the spec's decision D8, UNVERIFIED, notes/assumptions/8.md). -/
def Regs.reset : Regs := ⟨0, 0, 0, 0, 0, 0, 0⟩

/-- The machine right after reset with the given memory: `pc = 0x8000`, `sp = 0` (R26, the source); every other register
zero (R27, decision D8, UNVERIFIED). -/
def State.resetWith (mem : Memory) : State :=
  { regs := Regs.reset, pc := Config.bootPc, sp := Config.bootSp, psr := 0, tr := 0, tlr := 0, thr := 0,
    ppc := 0, ppsr := 0, mem := mem }

/-- The machine right after reset, constructed from two empty images: every byte of memory is the zero padding of R33.
DESIGN CHOICE of the images (notes/assumptions/12.md); `construct` (Driver.lean) takes any images. -/
def State.reset : State := State.resetWith []

/-- The stop conditions (R146, R149): a step that ends without a next state. Each carries its payload (R146, D18) and the
state the stop leaves (R150 to R153; decision D10 for the two after the fetch, UNVERIFIED, notes/assumptions/10.md). -/
inductive Fault where
  /-- Raised by the fetch of the word `0x0000` (R61, R153). The spec's own stop, and the normal end of a run (R185). Safe:
  the model stops where the spec says the step stops. `left` is the state before the step, unchanged. -/
  | debugInterrupt (left : State)
  /-- Raised by decode for a word no instruction has (R59, R151). The spec's own stop. Safe: the model stops where the spec
  says the step stops. `left` is the state with `pc` already advanced (D10: a claim about `left` is unsafe). -/
  | unknownInstruction (w : Word) (left : State)
  /-- Raised by the fetch and by `lh lhu lw sh sw push pop` when the access address is `0x7FFF` or `0xFFFF` (R36, R150,
  R152). The spec's own stop. Safe: the model stops where the spec says the step stops. At fetch `left` is unchanged; at
  execution `pc` is advanced and `push` has decremented `sp` (R130, D10: a claim about `left` is unsafe). -/
  | invalidAddress (a : Word) (left : State)
deriving DecidableEq, Repr

/-- Why the model gives no meaning. Every instruction of the opcode table has one, so no step answers this. -/
inductive Refusal where
  /-- Raised by an arm of `exec` for an instruction that has no meaning yet; no arm does. Safe: the model would stop where
  the hardware goes on. -/
  | notModelled (mnemonic : String)
deriving DecidableEq, Repr

/-- The answer of one step or of one instruction. -/
abbrev Result := Host.Outcome State Fault Refusal

end Sys2Proof.Machine
end

