-- ==== Sys2Proof/Machine/Ops.lean ====
section
/-! DEFINITION. The named operations over registers and memory (R11, R30 to R42), fetching and decoding the next
instruction (R143 points 1 to 4), taking the trap (R155) and returning from it (R157). -/

namespace Sys2Proof.Machine

/-! ## Registers -/

/-- `x[i]` of a register file: `x0` always reads as 0 (R11). -/
def Regs.get (g : Regs) : Reg → Word
  | .x0 => 0
  | .x1 => g.x1
  | .x2 => g.x2
  | .x3 => g.x3
  | .x4 => g.x4
  | .x5 => g.x5
  | .x6 => g.x6
  | .x7 => g.x7

/-- `x[i] <- v` of a register file: a write to `x0` is discarded (R11). -/
def Regs.set (g : Regs) (r : Reg) (v : Word) : Regs :=
  match r with
  | .x0 => g
  | .x1 => { g with x1 := v }
  | .x2 => { g with x2 := v }
  | .x3 => { g with x3 := v }
  | .x4 => { g with x4 := v }
  | .x5 => { g with x5 := v }
  | .x6 => { g with x6 := v }
  | .x7 => { g with x7 := v }

/-- `x[i]` (R7, R11). -/
def State.getReg (s : State) (r : Reg) : Word := s.regs.get r

/-- `x[i] <- v` (R7, R11). -/
def State.setReg (s : State) (r : Reg) (v : Word) : State := { s with regs := s.regs.set r v }

/-- `pc <- v` (R13). -/
def State.setPc (s : State) (v : Word) : State := { s with pc := v }

/-- `sp <- v` (R16). -/
def State.setSp (s : State) (v : Word) : State := { s with sp := v }

/-- `psr <- v`: all 16 bits are storage (R17; decision D15, UNVERIFIED, notes/assumptions/13.md). -/
def State.setPsr (s : State) (v : Word) : State := { s with psr := v }

/-- `tr <- v` (R18). -/
def State.setTr (s : State) (v : DWord) : State := { s with tr := v }

/-- `tlr <- v` (R19). -/
def State.setTlr (s : State) (v : Word) : State := { s with tlr := v }

/-- `thr <- v` (R19). -/
def State.setThr (s : State) (v : Word) : State := { s with thr := v }

/-- `ppc <- v` (R20). -/
def State.setPpc (s : State) (v : Word) : State := { s with ppc := v }

/-- `ppsr <- v` (R20). -/
def State.setPpsr (s : State) (v : Word) : State := { s with ppsr := v }

/-- Replace memory. -/
def State.setMem (s : State) (m : Memory) : State := { s with mem := m }

/-! ## Memory as data -/

/-- What an unlisted address reads as: the zero padding of the images (R28, R33). -/
def Memory.unlisted : Byte := 0x00

/-- The byte listed at an address, or the padding. -/
def Memory.read : Memory → Nat → Byte
  | [], _ => Memory.unlisted
  | (k, b) :: m, a => if k = a then b else Memory.read m a

/-- Put a cell in front, unless it holds what an unlisted address reads as. -/
def Memory.cons (a : Nat) (v : Byte) (m : Memory) : Memory := if v = Memory.unlisted then m else (a, v) :: m

/-- Every cell but those at an address. -/
def Memory.drop : Memory → Nat → Memory
  | [], _ => []
  | (k, b) :: m, a => if k = a then Memory.drop m a else (k, b) :: Memory.drop m a

/-- Put a byte in its place among rising addresses. -/
def Memory.insert : Memory → Nat → Byte → Memory
  | [], a, v => Memory.cons a v []
  | (k, b) :: m, a, v => if a < k then Memory.cons a v ((k, b) :: m) else (k, b) :: Memory.insert m a v

/-- Write one byte: what the address held is dropped, the new byte put in its place. It keeps the canonical form, and a
byte written is read back from any list of cells. -/
def Memory.write (m : Memory) (a : Nat) (v : Byte) : Memory := Memory.insert (Memory.drop m a) a v

/-- The canonical form above a bound: addresses strictly rising from `lo` and inside the 16-bit space (R30), no listed
byte equal to the padding. -/
def Memory.wfFrom (lo : Nat) : Memory → Bool
  | [] => true
  | (k, b) :: m => decide (lo ≤ k) && decide (k < 65536) && decide (b ≠ Memory.unlisted) && Memory.wfFrom (k + 1) m

/-- The canonical form of a memory. -/
def Memory.wf (m : Memory) : Bool := Memory.wfFrom 0 m

/-- An image laid out from an address on; bytes equal to the padding are not listed (R33). -/
def Memory.ofImage : Nat → List Byte → Memory
  | _, [] => []
  | a, b :: bytes => Memory.cons a b (Memory.ofImage (a + 1) bytes)

/-! ## The address decoder and the access primitives -/

/-- The two regions (R31). -/
inductive Region where
  | ram
  | rom
deriving DecidableEq, Repr

/-- Bit 15 of the address selects the region (R31). -/
def regionOf (a : Word) : Region := if a.getLsbD 15 then .rom else .ram

/-- The first address of a region (R31). -/
def Region.base : Region → Nat
  | .ram => 0x0000
  | .rom => 0x8000

/-- The byte offset of an address in its region (R31). -/
def regionOffset (a : Word) : Nat := a.toNat - (regionOf a).base

/-- The address check of R36, the same for both widths and both directions: the two-byte window at the address lies inside
the resolved region. -/
abbrev AccessOk (a : Word) : Prop := regionOffset a + 1 < Config.regionSize

/-- `B(a)`: the byte the decoder finds at an address (R37). -/
def State.byteAt (s : State) (a : Word) : Byte := s.mem.read a.toNat

/-- `B(a) <- v`. -/
def State.setByte (s : State) (a : Word) (v : Byte) : State := s.setMem (s.mem.write a.toNat v)

/-- `raise InvalidAddress(a)`: the state is the one the statements before the `raise` left (R7, R36). -/
def invalidAccess {α : Type} (s : State) (a : Word) : Except Fault α := .error (.invalidAddress a s)

/-- `MemRead(a, 1)`: one byte (R36, R37). -/
def memReadByte (s : State) (a : Word) : Except Fault Byte :=
  if AccessOk a then .ok (s.byteAt a) else invalidAccess s a

/-- `MemRead(a, 2)`: `B(a + 1) ++ B(a)` (R36, R37). -/
def memReadWord (s : State) (a : Word) : Except Fault Word :=
  if AccessOk a then .ok (wordOfBytes (s.byteAt a) (s.byteAt (a + 1))) else invalidAccess s a

/-- `MemWrite(a, 1, v)`: only the byte at `a` (R36, R39). -/
def memWriteByte (s : State) (a : Word) (v : Byte) : Except Fault State :=
  if AccessOk a then .ok (s.setByte a v) else invalidAccess s a

/-- `MemWrite(a, 2, v)`: `B(a) <- v[7:0]`, `B(a + 1) <- v[15:8]` (R36, R38). -/
def memWriteWord (s : State) (a : Word) (v : Word) : Except Fault State :=
  if AccessOk a then .ok ((s.setByte a (lowByte v)).setByte (a + 1) (highByte v)) else invalidAccess s a

/-- Go on with what an access gave, or end the step at the stop it raised: "no statement after the `raise` runs" (R7). -/
def orStop {α : Type} (access : Except Fault α) (go : α → Result) : Result :=
  match access with
  | .ok v => go v
  | .error f => .fault f

/-! ## Fetch and decode -/

/-- Points 1 to 4 of the step (R143), in its order: read the word at `pc`; stop on zero with nothing changed; advance `pc`
by 2; decode. The state answered has `pc = pc_next` (R14). DEDUCED: no other rejection than `unknown` is left after the
zero test. -/
def fetch (s : State) : Except Fault (Instr × State) :=
  match memReadWord s s.pc with
  | .error f => .error f
  | .ok w =>
    if w = 0x0000 then .error (.debugInterrupt s)
    else
      let s' := s.setPc (s.pc + 2)
      match decodeWord w with
      | .ok i => .ok (i, s')
      | .error _ => .error (.unknownInstruction w s')

/-! ## The trap -/

/-- The fixed trap vector (R155, R4). -/
def trapVector : Word := 0x0000

/-- What `trap` writes to `psr`: the whole register, "trap active" set and nothing else (R17, R139). -/
def trapPsr : Word := 0x0002

/-- Trap entry: `ppc <- pc_next; ppsr <- psr; psr <- 0x0002; pc <- 0x0000` (R155), run with `pc = pc_next`. -/
def enterTrap (s : State) : State :=
  let s1 := s.setPpc s.pc
  let s2 := s1.setPpsr s1.psr
  let s3 := s2.setPsr trapPsr
  s3.setPc trapVector

/-- Trap return: `pc <- ppc; psr <- ppsr` (R157). -/
def returnFromTrap (s : State) : State :=
  let s1 := s.setPc s.ppc
  s1.setPsr s1.ppsr

/-! ## The state a stop leaves -/

/-- The state a stop leaves, from which a further step is defined (R149, R169; decision D11, UNVERIFIED,
notes/assumptions/11.md). -/
def Fault.left : Fault → State
  | .debugInterrupt s => s
  | .unknownInstruction _ s => s
  | .invalidAddress _ s => s

end Sys2Proof.Machine
end

