-- ==== Sys2Proof/Machine/Flags.lean ====
section
/-! DEFINITION. "There are no flags, condition codes or predicate registers" (R23): no instruction computes one. What
stands here are the six comparisons the conditional branches make instead (R87), and the one named bit of `psr`. -/

namespace Sys2Proof.Machine

/-- `beq` (R89). -/
def condEq (a b : Word) : Bool := decide (a = b)

/-- `bnq` (R90). -/
def condNe (a b : Word) : Bool := decide (a ≠ b)

/-- `blt`: signed, two's complement (R91; R6, G2, UNVERIFIED, notes/assumptions/21.md). -/
def condLtSigned (a b : Word) : Bool := decide (a.toInt < b.toInt)

/-- `bge`: signed, two's complement (R92; R6, G2, UNVERIFIED, notes/assumptions/21.md). -/
def condGeSigned (a b : Word) : Bool := decide (b.toInt ≤ a.toInt)

/-- `bltu`: unsigned (R93). -/
def condLtUnsigned (a b : Word) : Bool := decide (a.toNat < b.toNat)

/-- `bgeu`: unsigned (R94). -/
def condGeUnsigned (a b : Word) : Bool := decide (b.toNat ≤ a.toNat)

/-- TA, bit 1 of `psr`: "trap active" (R17). A status mark only; no instruction tests it (R161). -/
def trapActive (psr : Word) : Bool := psr.getLsbD 1

end Sys2Proof.Machine
end

