-- ==== Sys2Proof/Machine/Operands.lean ====
section
/-! DEFINITION. Every operand form: how an immediate becomes a 16-bit operand (R53), the shift count (R72), the effective
address (R100) and the branch target (R88). Nothing is scaled (R53; decision D6, UNVERIFIED, notes/assumptions/6.md). -/

namespace Sys2Proof.Machine

/-- `zext_5` (R7, R53). -/
def zext5 (imm : Imm5) : Word := imm.setWidth 16

/-- `sext_5` (R7, R53). -/
def sext5 (imm : Imm5) : Word := imm.signExtend 16

/-- `zext_8` (R7, R53). -/
def zext8 (b : BitVec 8) : Word := b.setWidth 16

/-- `sext_8` (R7, R53). -/
def sext8 (b : BitVec 8) : Word := b.signExtend 16

/-- `imm8 ++ 0x00`: the immediate in the high byte, the low byte zero (R53, R112). -/
def highPlaced (imm : Imm8) : Word := imm ++ (0x00 : BitVec 8)

/-- `SHAMT_BITS` (R72; decision D4, UNVERIFIED, notes/assumptions/4.md). -/
def shamtBits : Nat := 4

/-- The shift count: the low four bits of the value of `rs` (R72). -/
def shiftCount (v : Word) : Nat := v.toNat % 2 ^ shamtBits

/-- `pc_this = pc_next - 2`: the address the executing instruction was fetched from (R7). -/
def pcThis (s : State) : Word := s.pc - 2

/-- `ea = (x[rs] + sext_5(imm5)) mod 2^16` (R100). -/
def effAddr (s : State) (rs : Reg) (imm : Imm5) : Word := s.getReg rs + sext5 imm

/-- The target of a taken branch: relative to the branch itself (R88). -/
def branchTarget (s : State) (imm : Imm5) : Word := pcThis s + sext5 imm

/-- The target of `jal`: relative to the `jal` itself (R88, R96). -/
def jalTarget (s : State) (imm : Imm8) : Word := pcThis s + sext8 imm

end Sys2Proof.Machine
end

