-- ==== Sys2Proof/Machine/ControlTransfer.lean ====
section
/-! DEFINITION. Control transfer: `beq bnq blt bge bltu bgeu jalr jal` (R87 to R99). -/

namespace Sys2Proof.Machine

/-- A conditional branch (R87, R88): compare `x[rd]` (left) with `x[rs]` (right); taken, `pc` is relative to the branch
itself; not taken, `pc` stays `pc_next`. -/
def branch (cond : Word → Word → Bool) (rd rs : Reg) (imm : Imm5) (s : State) : Result :=
  .next (if cond (s.getReg rd) (s.getReg rs) then s.setPc (branchTarget s imm) else s)

/-- `beq` (R89). -/
def execBeq (rd rs : Reg) (imm : Imm5) (s : State) : Result := branch condEq rd rs imm s

/-- `bnq` (R90). -/
def execBnq (rd rs : Reg) (imm : Imm5) (s : State) : Result := branch condNe rd rs imm s

/-- `blt` (R91). -/
def execBlt (rd rs : Reg) (imm : Imm5) (s : State) : Result := branch condLtSigned rd rs imm s

/-- `bge` (R92). -/
def execBge (rd rs : Reg) (imm : Imm5) (s : State) : Result := branch condGeSigned rd rs imm s

/-- `bltu` (R93). -/
def execBltu (rd rs : Reg) (imm : Imm5) (s : State) : Result := branch condLtUnsigned rd rs imm s

/-- `bgeu` (R94). -/
def execBgeu (rd rs : Reg) (imm : Imm5) (s : State) : Result := branch condGeUnsigned rd rs imm s

/-- `jalr` (R95): the link is written first, then `x[rs]` is read (decision D7, UNVERIFIED, notes/assumptions/7.md). -/
def execJalr (rd rs : Reg) (imm : Imm5) (s : State) : Result :=
  let s1 := s.setReg rd s.pc
  .next (s1.setPc (effAddr s1 rs imm))

/-- `jal` (R96). -/
def execJal (rd : Reg) (imm : Imm8) (s : State) : Result :=
  let s1 := s.setReg rd s.pc
  .next (s1.setPc (jalTarget s1 imm))

end Sys2Proof.Machine
end

