-- ==== Sys2Proof/Machine/I5Arith.lean ====
section
/-! DEFINITION. The I5 immediate arithmetic: `addi subi` (R83 to R86). -/

namespace Sys2Proof.Machine

/-- `addi` (R84): the immediate is zero-extended. -/
def execAddi (rd rs : Reg) (imm : Imm5) (s : State) : Result := .next (s.setReg rd (s.getReg rs + zext5 imm))

/-- `subi` (R85): the immediate is zero-extended. -/
def execSubi (rd rs : Reg) (imm : Imm5) (s : State) : Result := .next (s.setReg rd (s.getReg rs - zext5 imm))

end Sys2Proof.Machine
end

