-- ==== Sys2Proof/Machine/LoadImmediate.lean ====
section
/-! DEFINITION. The I8 load-immediate instructions: `lil lih` (R110 to R113). Each overwrites the whole register. -/

namespace Sys2Proof.Machine

/-- `lil`: `0x00 ++ imm8` (R111). -/
def execLil (rd : Reg) (imm : Imm8) (s : State) : Result := .next (s.setReg rd (zext8 imm))

/-- `lih`: `imm8 ++ 0x00` (R112). -/
def execLih (rd : Reg) (imm : Imm8) (s : State) : Result := .next (s.setReg rd (highPlaced imm))

end Sys2Proof.Machine
end

