-- ==== Sys2Proof/Machine/LoadStore.lean ====
section
/-! DEFINITION. Loads and stores: `lh lhu lw sh sw` (R100 to R109). -/

namespace Sys2Proof.Machine

/-- A byte load: `x[rd] <- ext(MemRead(ea, 1))`. The access is made for `rd = x0` too (R107; decision D17, UNVERIFIED,
notes/assumptions/15.md). -/
def loadByte (ext : Byte → Word) (rd rs : Reg) (imm : Imm5) (s : State) : Result :=
  orStop (memReadByte s (effAddr s rs imm)) fun b => .next (s.setReg rd (ext b))

/-- `lh`: load byte, sign-extended (R102). -/
def execLh (rd rs : Reg) (imm : Imm5) (s : State) : Result := loadByte sext8 rd rs imm s

/-- `lhu`: load byte, zero-extended (R103). -/
def execLhu (rd rs : Reg) (imm : Imm5) (s : State) : Result := loadByte zext8 rd rs imm s

/-- `lw`: load word (R104, R107). -/
def execLw (rd rs : Reg) (imm : Imm5) (s : State) : Result :=
  orStop (memReadWord s (effAddr s rs imm)) fun w => .next (s.setReg rd w)

/-- `sh`: store byte, the low byte of `x[rd]` (R105). -/
def execSh (rd rs : Reg) (imm : Imm5) (s : State) : Result :=
  orStop (memWriteByte s (effAddr s rs imm) (lowByte (s.getReg rd))) .next

/-- `sw`: store word (R106). -/
def execSw (rd rs : Reg) (imm : Imm5) (s : State) : Result :=
  orStop (memWriteWord s (effAddr s rs imm) (s.getReg rd)) .next

end Sys2Proof.Machine
end

