-- ==== Sys2Proof/Machine/RAlu.lean ====
section
/-! DEFINITION. The R class: `mov add sub and or xor sll srl sra` (R70 to R82). -/

namespace Sys2Proof.Machine

/-- The shape of every R-class instruction (R70, R71): both sources are read, then `x[rd] <- f x[rd] x[rs]`; nothing can
stop it. The roles of `rd` and `rs` are decision D5 (UNVERIFIED, notes/assumptions/5.md). -/
def aluRR (f : Word → Word → Word) (rd rs : Reg) (s : State) : Result :=
  .next (s.setReg rd (f (s.getReg rd) (s.getReg rs)))

/-- `mov` (R73). -/
def execMov (rd rs : Reg) (s : State) : Result := aluRR (fun _ b => b) rd rs s

/-- `add` (R74): modulo 2^16. -/
def execAdd (rd rs : Reg) (s : State) : Result := aluRR (fun a b => a + b) rd rs s

/-- `sub` (R75): the minuend is `rd`. -/
def execSub (rd rs : Reg) (s : State) : Result := aluRR (fun a b => a - b) rd rs s

/-- `and` (R76). -/
def execAnd (rd rs : Reg) (s : State) : Result := aluRR (fun a b => a &&& b) rd rs s

/-- `or` (R77). -/
def execOr (rd rs : Reg) (s : State) : Result := aluRR (fun a b => a ||| b) rd rs s

/-- `xor` (R78). -/
def execXor (rd rs : Reg) (s : State) : Result := aluRR (fun a b => a ^^^ b) rd rs s

/-- `sll` (R79). -/
def execSll (rd rs : Reg) (s : State) : Result := aluRR (fun a b => a <<< shiftCount b) rd rs s

/-- `srl` (R80): zeros enter at bit 15. -/
def execSrl (rd rs : Reg) (s : State) : Result := aluRR (fun a b => a >>> shiftCount b) rd rs s

/-- `sra` (R81): copies of bit 15 enter at bit 15. -/
def execSra (rd rs : Reg) (s : State) : Result := aluRR (fun a b => a.sshiftRight (shiftCount b)) rd rs s

end Sys2Proof.Machine
end

