-- ==== Sys2Proof/Machine/StackControl.lean ====
section
/-! DEFINITION. The C1 class: `push pop` and the moves from and to the control registers (R114 to R134). -/

namespace Sys2Proof.Machine

/-- `push` (R115): `sp` is decremented first and stays so when the write raises (R130; decision D10, UNVERIFIED,
notes/assumptions/10.md). -/
def execPush (rd : Reg) (s : State) : Result :=
  let s1 := s.setSp (s.sp - 2)
  orStop (memWriteWord s1 s1.sp (s1.getReg rd)) .next

/-- `pop` (R116): the read uses the old `sp`, and is made for `rd = x0` too (decision D17, UNVERIFIED,
notes/assumptions/15.md). -/
def execPop (rd : Reg) (s : State) : Result :=
  orStop (memReadWord s s.sp) fun w =>
    let s1 := s.setReg rd w
    .next (s1.setSp (s1.sp + 2))

/-- The shape of the `r*` instructions: copy a value into `rd` (R114). -/
def readInto (rd : Reg) (v : Word) (s : State) : Result := .next (s.setReg rd v)

/-- `rpc`: `pc_next` (R117; DEDUCED by the spec from R14, notes/assumptions/18.md). -/
def execRpc (rd : Reg) (s : State) : Result := readInto rd s.pc s

/-- `rsp` (R118). -/
def execRsp (rd : Reg) (s : State) : Result := readInto rd s.sp s

/-- `rpsr` (R119). -/
def execRpsr (rd : Reg) (s : State) : Result := readInto rd s.psr s

/-- `rtlr` (R120): the staging register, not `tr`. -/
def execRtlr (rd : Reg) (s : State) : Result := readInto rd s.tlr s

/-- `rthr` (R121): the staging register, not `tr`. -/
def execRthr (rd : Reg) (s : State) : Result := readInto rd s.thr s

/-- `rppc` (R122). -/
def execRppc (rd : Reg) (s : State) : Result := readInto rd s.ppc s

/-- `rppsr` (R123). -/
def execRppsr (rd : Reg) (s : State) : Result := readInto rd s.ppsr s

/-- `wsp` (R124): any 16-bit value. -/
def execWsp (rd : Reg) (s : State) : Result := .next (s.setSp (s.getReg rd))

/-- `wpsr` (R125): all 16 bits. -/
def execWpsr (rd : Reg) (s : State) : Result := .next (s.setPsr (s.getReg rd))

/-- `wtlr` (R126): `tr` is not changed. -/
def execWtlr (rd : Reg) (s : State) : Result := .next (s.setTlr (s.getReg rd))

/-- `wthr` (R127): `tr` is not changed. -/
def execWthr (rd : Reg) (s : State) : Result := .next (s.setThr (s.getReg rd))

/-- `wppc` (R128): `pc` is not changed. -/
def execWppc (rd : Reg) (s : State) : Result := .next (s.setPpc (s.getReg rd))

/-- `wppsr` (R129): `psr` is not changed. -/
def execWppsr (rd : Reg) (s : State) : Result := .next (s.setPpsr (s.getReg rd))

end Sys2Proof.Machine
end

