-- ==== Sys2Proof/Machine/System.lean ====
section
/-! DEFINITION. The C2 class and the trap: `rfi rtr wtr trap` (R135 to R142). There is one mode; none is privileged
(R163; decision D19, UNVERIFIED, notes/assumptions/16.md). -/

namespace Sys2Proof.Machine

/-- `tr[31:16]` (R137). -/
def timerHigh (tr : DWord) : Word := tr.extractLsb' 16 16

/-- `tr[15:0]` (R137). -/
def timerLow (tr : DWord) : Word := tr.extractLsb' 0 16

/-- `rfi`: trap return (R136, R157). -/
def execRfi (s : State) : Result := .next (returnFromTrap s)

/-- `rtr`: split `tr` into `thr` and `tlr` (R137). `tr` does not count (R18; decision D9, UNVERIFIED,
notes/assumptions/9.md). -/
def execRtr (s : State) : Result :=
  let s1 := s.setThr (timerHigh s.tr)
  .next (s1.setTlr (timerLow s1.tr))

/-- `wtr`: combine `thr:tlr` into `tr` (R138). -/
def execWtr (s : State) : Result := .next (s.setTr (s.thr ++ s.tlr))

/-- `trap`: trap entry (R139, R155). -/
def execTrap (s : State) : Result := .next (enterTrap s)

end Sys2Proof.Machine
end

