-- ==== Sys2Proof/Machine/Dispatch.lean ====
section
/-! DEFINITION. The meaning of every instruction, one arm per constructor, run with `pc = pc_next` (R143 point 5). -/

namespace Sys2Proof.Machine

def exec (i : Instr) (s : State) : Host.Outcome State Fault Refusal :=
  match i with
  | .mov rd rs => Sys2Proof.Machine.execMov rd rs s
  | .add rd rs => Sys2Proof.Machine.execAdd rd rs s
  | .sub rd rs => Sys2Proof.Machine.execSub rd rs s
  | .and rd rs => Sys2Proof.Machine.execAnd rd rs s
  | .or rd rs => Sys2Proof.Machine.execOr rd rs s
  | .xor rd rs => Sys2Proof.Machine.execXor rd rs s
  | .sll rd rs => Sys2Proof.Machine.execSll rd rs s
  | .srl rd rs => Sys2Proof.Machine.execSrl rd rs s
  | .sra rd rs => Sys2Proof.Machine.execSra rd rs s
  | .addi rd rs imm => Sys2Proof.Machine.execAddi rd rs imm s
  | .subi rd rs imm => Sys2Proof.Machine.execSubi rd rs imm s
  | .beq rd rs imm => Sys2Proof.Machine.execBeq rd rs imm s
  | .bnq rd rs imm => Sys2Proof.Machine.execBnq rd rs imm s
  | .blt rd rs imm => Sys2Proof.Machine.execBlt rd rs imm s
  | .bge rd rs imm => Sys2Proof.Machine.execBge rd rs imm s
  | .bltu rd rs imm => Sys2Proof.Machine.execBltu rd rs imm s
  | .bgeu rd rs imm => Sys2Proof.Machine.execBgeu rd rs imm s
  | .jalr rd rs imm => Sys2Proof.Machine.execJalr rd rs imm s
  | .lh rd rs imm => Sys2Proof.Machine.execLh rd rs imm s
  | .lhu rd rs imm => Sys2Proof.Machine.execLhu rd rs imm s
  | .lw rd rs imm => Sys2Proof.Machine.execLw rd rs imm s
  | .sh rd rs imm => Sys2Proof.Machine.execSh rd rs imm s
  | .sw rd rs imm => Sys2Proof.Machine.execSw rd rs imm s
  | .jal rd imm => Sys2Proof.Machine.execJal rd imm s
  | .lil rd imm => Sys2Proof.Machine.execLil rd imm s
  | .lih rd imm => Sys2Proof.Machine.execLih rd imm s
  | .push rd => Sys2Proof.Machine.execPush rd s
  | .pop rd => Sys2Proof.Machine.execPop rd s
  | .rpc rd => Sys2Proof.Machine.execRpc rd s
  | .rsp rd => Sys2Proof.Machine.execRsp rd s
  | .rpsr rd => Sys2Proof.Machine.execRpsr rd s
  | .rtlr rd => Sys2Proof.Machine.execRtlr rd s
  | .rthr rd => Sys2Proof.Machine.execRthr rd s
  | .rppc rd => Sys2Proof.Machine.execRppc rd s
  | .rppsr rd => Sys2Proof.Machine.execRppsr rd s
  | .wsp rd => Sys2Proof.Machine.execWsp rd s
  | .wpsr rd => Sys2Proof.Machine.execWpsr rd s
  | .wtlr rd => Sys2Proof.Machine.execWtlr rd s
  | .wthr rd => Sys2Proof.Machine.execWthr rd s
  | .wppc rd => Sys2Proof.Machine.execWppc rd s
  | .wppsr rd => Sys2Proof.Machine.execWppsr rd s
  | .rfi => Sys2Proof.Machine.execRfi s
  | .rtr => Sys2Proof.Machine.execRtr s
  | .wtr => Sys2Proof.Machine.execWtr s
  | .trap => Sys2Proof.Machine.execTrap s

end Sys2Proof.Machine
end

