-- ==== Sys2Proof/Machine/Step.lean ====
section
/-! DEFINITION. One step of the machine (R143, R181), and the placing of an instruction where the next step fetches it. -/

namespace Sys2Proof.Machine

/-- One fetch-decode-execute transition (R143): points 1 to 4 are `fetch`, point 5 is `exec`. -/
def step (s : State) : Host.Outcome State Fault Refusal :=
  match fetch s with
  | .error f => .fault f
  | .ok (i, s') => exec i s'

/-- The instruction whose bits are `w` (of `nbits` bits, the rest zero) stored little-endian (R34) at the address `step`
fetches from next. The fetch needs nothing else, but where `pc` is one of the two addresses no fetch can start at (R36):
there `pc` is first set to its boot value (notes/assumptions/24.md). -/
def State.withFetchWord (s : State) (nbits w : Nat) : State :=
  let word : Word := BitVec.ofNat 16 (w % 2 ^ nbits)
  let s1 := if AccessOk s.pc then s else s.setPc Config.bootPc
  (s1.setByte s1.pc (lowByte word)).setByte (s1.pc + 1) (highByte word)

end Sys2Proof.Machine
end

