-- ==== Sys2Proof/WellFormed.lean ====
section
/-! DEFINITION. The checks on what the machine is given: an immediate as it is written (the ranges of R53 and R63) and
the two images (R33). A term of `Instr` passes by its types (its operands have their fields' widths);
`Sys2Proof.Laws.instr_wf` proves it. -/

namespace Sys2Proof

/-- The four ways a written immediate is read (R53, R63). -/
inductive ImmKind where
  /-- `addi`, `subi`: 0..31 -/
  | unsigned5
  /-- branches, `jalr`, loads and stores: -16..15 -/
  | signed5
  /-- `jal`: -128..127 -/
  | signed8
  /-- `lil`, `lih`: 0..255 -/
  | unsigned8
deriving DecidableEq, Repr

/-- The least value that may be written (R63). -/
def ImmKind.least : ImmKind → Int
  | .unsigned5 => 0
  | .signed5 => -16
  | .signed8 => -128
  | .unsigned8 => 0

/-- The greatest value that may be written (R63). -/
def ImmKind.greatest : ImmKind → Int
  | .unsigned5 => 31
  | .signed5 => 15
  | .signed8 => 127
  | .unsigned8 => 255

/-- "An immediate outside its range is an assembly error, never truncated silently" (R63). -/
def ImmKind.inRange (k : ImmKind) (v : Int) : Bool :=
  decide (k.least ≤ v) && decide (v ≤ k.greatest)

/-- The immediate of an instruction as it is written in the syntax of R63, with its kind. -/
def Instr.writtenImm : Instr → Option (ImmKind × Int)
  | .mov _ _ | .add _ _ | .sub _ _ | .and _ _ | .or _ _ | .xor _ _ | .sll _ _ | .srl _ _ | .sra _ _ => none
  | .addi _ _ imm | .subi _ _ imm => some (.unsigned5, imm.toNat)
  | .beq _ _ imm | .bnq _ _ imm | .blt _ _ imm | .bge _ _ imm | .bltu _ _ imm | .bgeu _ _ imm
  | .jalr _ _ imm | .lh _ _ imm | .lhu _ _ imm | .lw _ _ imm | .sh _ _ imm | .sw _ _ imm =>
    some (.signed5, imm.toInt)
  | .jal _ imm => some (.signed8, imm.toInt)
  | .lil _ imm | .lih _ imm => some (.unsigned8, imm.toNat)
  | .push _ | .pop _ | .rpc _ | .rsp _ | .rpsr _ | .rtlr _ | .rthr _ | .rppc _ | .rppsr _ => none
  | .wsp _ | .wpsr _ | .wtlr _ | .wthr _ | .wppc _ | .wppsr _ => none
  | .rfi | .rtr | .wtr | .trap => none

/-- A written immediate, if there is one, is in the range of its kind. -/
def immWf : Option (ImmKind × Int) → Bool
  | none => true
  | some (k, v) => k.inRange v

/-- An instruction is well-formed when its immediate can be written. -/
def Instr.wf (i : Instr) : Bool := immWf i.writtenImm

/-- The 5-bit field of a written immediate, or nothing where it is out of range or of another width (R63). -/
def ImmKind.field5 (k : ImmKind) (v : Int) : Option Imm5 :=
  match k with
  | .unsigned5 | .signed5 => if k.inRange v then some (BitVec.ofInt 5 v) else none
  | .signed8 | .unsigned8 => none

/-- The 8-bit field of a written immediate, or nothing where it is out of range or of another width (R63). -/
def ImmKind.field8 (k : ImmKind) (v : Int) : Option Imm8 :=
  match k with
  | .signed8 | .unsigned8 => if k.inRange v then some (BitVec.ofInt 8 v) else none
  | .unsigned5 | .signed5 => none

/-- An image fits its region: at most 32768 bytes (R33). -/
def imageFits (bytes : List Byte) : Bool := decide (bytes.length ≤ Config.regionSize)

/-- Both images fit (R33, D13): the well-formedness of the machine's configuration. -/
def Config.Images.wf (c : Config.Images) : Bool := imageFits c.rom && imageFits c.ram

end Sys2Proof
end

