-- ==== Sys2Proof/Machine/Driver.lean ====
section
/-! DEFINITION. The thin interface around the core (R178): construction from two images (R33, R170), `run` with an
optional stop address (R182), read-only inspection (R183). None of it is state of the core (R29). -/

namespace Sys2Proof.Machine

/-- Why no machine is constructed (R33, R188). -/
inductive ConstructRefusal where
  /-- `TooLargeRomFile`: `len(ROM_IMAGE) > 32768` (R188). -/
  | tooLargeRomFile
  /-- `TooLargeRamFile`: `len(RAM_IMAGE) > 32768` (R188). -/
  | tooLargeRamFile
  /-- Both are too large: the source does not say which name is reported (R188, U4, notes/assumptions/20.md). -/
  | tooLargeBoth
deriving DecidableEq, Repr

/-- Memory after construction: each image at the start of its region, zero padding above it (R28, R33). -/
def memoryOf (c : Config.Images) : Memory :=
  Memory.ofImage Region.ram.base c.ram ++ Memory.ofImage Region.rom.base c.rom

/-- Construction, which is reset (R33, R170). An image that does not fit is refused (R33; decision D13, UNVERIFIED,
notes/assumptions/12.md). -/
def construct (c : Config.Images) : Except ConstructRefusal State :=
  match imageFits c.rom, imageFits c.ram with
  | true, true => .ok (State.resetWith (memoryOf c))
  | false, true => .error .tooLargeRomFile
  | true, false => .error .tooLargeRamFile
  | false, false => .error .tooLargeBoth

/-- How `run` ends (R182), or where its fuel did (R186: nothing bounds a run of the hardware). -/
inductive RunEnd where
  /-- A step returned a stop. -/
  | stopped (f : Fault)
  /-- `pc` equalled the stop address after a step. -/
  | reachedStopAddress (s : State)
  /-- The model gave an instruction no meaning; it never does. -/
  | refused (r : Refusal)
  /-- The fuel is spent and the run has not ended. -/
  | outOfFuel (s : State)
deriving DecidableEq, Repr

/-- `run(stop_address)` (R182): step, return at the first stop, then compare `pc` with the stop address. The fuel is the
model's (R186, notes/assumptions/22.md). -/
def run (stopAddress : Option Word) : Nat → State → RunEnd
  | 0, s => .outOfFuel s
  | fuel + 1, s =>
    match step s with
    | .fault f => .stopped f
    | .refused r => .refused r
    | .next t => if stopAddress = some t.pc then .reachedStopAddress t else run stopAddress fuel t

/-- A run ended normally iff its stop is `DebugInterrupt` (R185). -/
def Fault.isNormalEnd : Fault → Bool
  | .debugInterrupt _ => true
  | .unknownInstruction _ _ => false
  | .invalidAddress _ _ => false

/-- What a register accessor of the inspection interface can name (R183). -/
inductive RegName where
  | x (r : Reg)
  | pc | sp | psr | tlr | thr | ppc | ppsr
deriving DecidableEq, Repr

/-- The read-only view of the 16-bit registers (R183). -/
def inspectReg (s : State) : RegName → Word
  | .x r => s.getReg r
  | .pc => s.pc
  | .sp => s.sp
  | .psr => s.psr
  | .tlr => s.tlr
  | .thr => s.thr
  | .ppc => s.ppc
  | .ppsr => s.ppsr

/-- The read-only view of the timer register (R183). -/
def inspectTimer (s : State) : DWord := s.tr

/-- The read-only view of memory: `MemRead`, a flag selecting the byte form (R183). -/
def inspectMem (s : State) (a : Word) (half : Bool) : Except Fault (Byte ⊕ Word) :=
  if half then (memReadByte s a).map Sum.inl else (memReadWord s a).map Sum.inr

end Sys2Proof.Machine
end

