-- ==== Sys2Proof/Safety.lean ====
section
/-! DEFINITION. The terms the claims are stated in: a safe step, the parts of the state and what stays the same, which
parts each instruction may write (R12, R15, R21), the invariant of memory. -/

namespace Sys2Proof.Machine

/-- One piece of the architectural state (R29), `x0` and each byte of memory among them. -/
inductive Part where
  | reg (r : Reg)
  | pc | sp | psr | tr | tlr | thr | ppc | ppsr
  | byte (a : Word)
deriving DecidableEq, Repr

/-- What a part holds, as a number. -/
def State.part (s : State) : Part → Nat
  | .reg r => (s.getReg r).toNat
  | .pc => s.pc.toNat
  | .sp => s.sp.toNat
  | .psr => s.psr.toNat
  | .tr => s.tr.toNat
  | .tlr => s.tlr.toNat
  | .thr => s.thr.toNat
  | .ppc => s.ppc.toNat
  | .ppsr => s.ppsr.toNat
  | .byte a => (s.byteAt a).toNat

/-- The frame: every part but those listed holds in `t` what it held in `s`. -/
def SameBut (changed : List Part) (s t : State) : Prop := ∀ p : Part, p ∉ changed → t.part p = s.part p

/-- `x[rd] <- v` and nothing else: `rd` holds `v` after (0 where `rd` is `x0`, R11), every other part is as it was, `pc`
and every byte of memory among them. -/
def WritesReg (rd : Reg) (v : Word) (s t : State) : Prop :=
  t.getReg rd = (if rd = .x0 then 0 else v) ∧ SameBut [.reg rd] s t

/-- The parts an instruction may write when it completes in a state with `pc = pc_next` (R12 for `rd`, R15 for `pc`, R21
for the other registers, R30 for memory). -/
def writtenParts (i : Instr) (s : State) : List Part :=
  match i with
  | .mov rd _ | .add rd _ | .sub rd _ | .and rd _ | .or rd _ | .xor rd _ | .sll rd _ | .srl rd _ | .sra rd _ => [.reg rd]
  | .addi rd _ _ | .subi rd _ _ | .lh rd _ _ | .lhu rd _ _ | .lw rd _ _ | .lil rd _ | .lih rd _ => [.reg rd]
  | .rpc rd | .rsp rd | .rpsr rd | .rtlr rd | .rthr rd | .rppc rd | .rppsr rd => [.reg rd]
  | .beq _ _ _ | .bnq _ _ _ | .blt _ _ _ | .bge _ _ _ | .bltu _ _ _ | .bgeu _ _ _ => [.pc]
  | .jalr rd _ _ | .jal rd _ => [.reg rd, .pc]
  | .sh _ rs imm => [.byte (effAddr s rs imm)]
  | .sw _ rs imm => [.byte (effAddr s rs imm), .byte (effAddr s rs imm + 1)]
  | .push _ => [.sp, .byte (s.sp - 2), .byte (s.sp - 1)]
  | .pop rd => [.reg rd, .sp]
  | .wsp _ => [.sp]
  | .wpsr _ => [.psr]
  | .wtlr _ => [.tlr]
  | .wthr _ => [.thr]
  | .wppc _ => [.ppc]
  | .wppsr _ => [.ppsr]
  | .rfi => [.pc, .psr]
  | .rtr => [.thr, .tlr]
  | .wtr => [.tr]
  | .trap => [.ppc, .ppsr, .psr, .pc]

/-- The instructions that access memory when they execute (R30, R146). -/
def accessesMemory : Instr → Bool
  | .lh _ _ _ | .lhu _ _ _ | .lw _ _ _ | .sh _ _ _ | .sw _ _ _ | .push _ | .pop _ => true
  | .mov _ _ | .add _ _ | .sub _ _ | .and _ _ | .or _ _ | .xor _ _ | .sll _ _ | .srl _ _ | .sra _ _
  | .addi _ _ _ | .subi _ _ _ | .beq _ _ _ | .bnq _ _ _ | .blt _ _ _ | .bge _ _ _ | .bltu _ _ _ | .bgeu _ _ _
  | .jalr _ _ _ | .jal _ _ | .lil _ _ | .lih _ _ | .rpc _ | .rsp _ | .rpsr _ | .rtlr _ | .rthr _ | .rppc _
  | .rppsr _ | .wsp _ | .wpsr _ | .wtlr _ | .wthr _ | .wppc _ | .wppsr _ | .rfi | .rtr | .wtr | .trap => false

/-- The instructions that read or write `psr` (R17, R21). -/
def touchesPsr : Instr → Bool
  | .rpsr _ | .wpsr _ | .rfi | .trap => true
  | .mov _ _ | .add _ _ | .sub _ _ | .and _ _ | .or _ _ | .xor _ _ | .sll _ _ | .srl _ _ | .sra _ _
  | .addi _ _ _ | .subi _ _ _ | .beq _ _ _ | .bnq _ _ _ | .blt _ _ _ | .bge _ _ _ | .bltu _ _ _ | .bgeu _ _ _
  | .jalr _ _ _ | .lh _ _ _ | .lhu _ _ _ | .lw _ _ _ | .sh _ _ _ | .sw _ _ _ | .jal _ _ | .lil _ _ | .lih _ _
  | .push _ | .pop _ | .rpc _ | .rsp _ | .rtlr _ | .rthr _ | .rppc _ | .rppsr _ | .wsp _ | .wtlr _ | .wthr _
  | .wppc _ | .wppsr _ | .rtr | .wtr => false

/-- Memory is in its canonical form. Every machine that exists is constructed so, and every step keeps it. -/
def MemoryCanonical (s : State) : Prop := s.mem.wf = true

/-- The next state, where there is one. -/
def nextState : Result → Option State
  | .next t => some t
  | .fault _ => none
  | .refused _ => none

/-- The stop, where there is one. -/
def stopOf : Result → Option Fault
  | .next _ => none
  | .fault f => some f
  | .refused _ => none

/-- The same answer with `psr` replaced in the state it leaves. -/
def resultWithPsr (v : Word) : Result → Result
  | .next t => .next (t.setPsr v)
  | .fault (.debugInterrupt t) => .fault (.debugInterrupt (t.setPsr v))
  | .fault (.unknownInstruction w t) => .fault (.unknownInstruction w (t.setPsr v))
  | .fault (.invalidAddress a t) => .fault (.invalidAddress a (t.setPsr v))
  | .refused r => .refused r

/-- A safe step: it completes, or ends the run normally (R185). -/
def SafeStep (s : State) : Prop := ∃ t, step s = .next t ∨ step s = .fault (.debugInterrupt t)

/-- The states of `k` completed steps from a state. -/
def stepsTo : Nat → State → State → Prop
  | 0, s, t => s = t
  | k + 1, s, t => ∃ u, step s = .next u ∧ stepsTo k u t

end Sys2Proof.Machine
end

