-- ==== Sys2Proof/Certificates/Slice0/Obligations.lean ====
section
/-! DEFINITION. What the spec says of ZKTC-EMU CORE, stated of the model. `exec` runs with `pc = pc_next` (R7, R14), so in
the statements about one instruction `s.pc` is the address after the instruction and `s.pc - 2` its own address. Where a
rule rests on one of the spec's decisions D1 to D20, the docstring names it. -/

open Sys2Proof Sys2Proof.Machine

/-! ## Registers and reset -/

/-- R11: `x0` reads as 0 and discards writes; any other register returns the value last written to it, or what it held
before any of the writes; and no instruction leaves `x0` nonzero. -/
def Obligations.RegisterReturnsLastWrite : Prop :=
  (∀ (writes : List (Reg × Word)) (s : State) (q : Reg),
    (writes.foldl (fun u w => u.setReg w.1 w.2) s).getReg q =
      if q = .x0 then 0
      else ((writes.reverse.find? fun w => decide (w.1 = q)).map Prod.snd).getD (s.getReg q)) ∧
  (∀ (s : State) (v : Word), s.setReg .x0 v = s) ∧
  (∀ (i : Instr) (s t : State), exec i s = .next t → t.getReg .x0 = 0)

/-- R26: after reset, whatever the images, `pc = 0x8000`, `sp = 0` and `x0` reads 0. -/
def Obligations.ResetBootValues : Prop :=
  (State.reset.pc = 0x8000 ∧ State.reset.sp = 0x0000 ∧ State.reset.getReg .x0 = 0) ∧
  ∀ (c : Config.Images) (s : State), construct c = .ok s → s.pc = 0x8000 ∧ s.sp = 0x0000 ∧ s.getReg .x0 = 0

/-- The other registers are zero at reset: the spec's decision D8 (log entry 8), no statement of the source. -/
def Obligations.ResetZeroRegisters : Prop :=
  ∀ (c : Config.Images) (s : State), construct c = .ok s →
    (∀ r : Reg, s.getReg r = 0) ∧ s.psr = 0 ∧ s.tr = 0 ∧ s.tlr = 0 ∧ s.thr = 0 ∧ s.ppc = 0 ∧ s.ppsr = 0

/-- R28: after reset RAM byte `i` is `RAM_IMAGE[i]` below the image's length and `0x00` above it; ROM likewise. -/
def Obligations.ResetMemoryHoldsImages : Prop :=
  ∀ c : Config.Images, c.ram.length ≤ 32768 → c.rom.length ≤ 32768 →
    ∃ s, construct c = .ok s ∧ ∀ i : Nat, i < 32768 →
      s.byteAt (BitVec.ofNat 16 i) = c.ram.getD i 0x00 ∧
      s.byteAt (BitVec.ofNat 16 (0x8000 + i)) = c.rom.getD i 0x00

/-- An image over 32768 bytes is refused, each under its own name where only one is too large (R33, R188; D13: no machine
exists then). Which name is reported when both are is left open (log entry 20). -/
def Obligations.OversizeImageRefused : Prop :=
  ∀ c : Config.Images,
    ((∃ s, construct c = .ok s) ↔ c.rom.length ≤ 32768 ∧ c.ram.length ≤ 32768) ∧
    (32768 < c.rom.length → c.ram.length ≤ 32768 → construct c = .error .tooLargeRomFile) ∧
    (32768 < c.ram.length → c.rom.length ≤ 32768 → construct c = .error .tooLargeRamFile)

/-! ## Memory -/

/-- R31: bit 15 splits the space into RAM at offset `a` and ROM at offset `a - 0x8000`; every address is in one. -/
def Obligations.AddressSelectsRegion : Prop :=
  ∀ a : Word,
    (a.toNat < 0x8000 → regionOf a = .ram ∧ regionOffset a = a.toNat) ∧
    (0x8000 ≤ a.toNat → regionOf a = .rom ∧ regionOffset a = a.toNat - 0x8000) ∧
    regionOffset a < 32768

/-- R36: every access of either width and either direction raises `InvalidAddress(a)` at `0x7FFF` and `0xFFFF`, with that
address, and at no other address. -/
def Obligations.AccessRefusedAtRegionTop : Prop :=
  ∀ (s : State) (a v : Word) (b : Byte),
    if a = 0x7FFF ∨ a = 0xFFFF then
      memReadByte s a = .error (.invalidAddress a s) ∧ memReadWord s a = .error (.invalidAddress a s) ∧
      memWriteByte s a b = .error (.invalidAddress a s) ∧ memWriteWord s a v = .error (.invalidAddress a s)
    else
      (∃ x, memReadByte s a = .ok x) ∧ (∃ x, memReadWord s a = .ok x) ∧
      (∃ t, memWriteByte s a b = .ok t) ∧ (∃ t, memWriteWord s a v = .ok t)

/-- R37: a word read at a valid address gives the byte at `a + 1` above the byte at `a`, a byte read the byte at `a`; `lh`
sign-extends that byte, `lhu` zero-extends it. -/
def Obligations.ReadValueLittleEndian : Prop :=
  ∀ (s : State) (a : Word), a ≠ 0x7FFF → a ≠ 0xFFFF →
    memReadByte s a = .ok (s.byteAt a) ∧
    (∃ w, memReadWord s a = .ok w ∧ w.toNat = 256 * (s.byteAt (a + 1)).toNat + (s.byteAt a).toNat) ∧
    ∀ (rd rs : Reg) (imm : Imm5), effAddr s rs imm = a →
      exec (.lh rd rs imm) s = .next (s.setReg rd ((s.byteAt a).signExtend 16)) ∧
      exec (.lhu rd rs imm) s = .next (s.setReg rd ((s.byteAt a).setWidth 16))

/-- R38: a word write at a valid address sets `B(a)` to bits 7:0 and `B(a + 1)` to bits 15:8. Nothing else changes. -/
def Obligations.WordWriteEffect : Prop :=
  ∀ (s : State) (a v : Word), a ≠ 0x7FFF → a ≠ 0xFFFF →
    ∃ t, memWriteWord s a v = .ok t ∧ (t.byteAt a).toNat = v.toNat % 256 ∧
      (t.byteAt (a + 1)).toNat = v.toNat / 256 ∧ SameBut [.byte a, .byte (a + 1)] s t

/-- R39: a byte write at a valid address sets that byte and nothing else; an access that raises has changed nothing; there
is no third outcome. -/
def Obligations.ByteWriteEffect : Prop :=
  ∀ (s : State) (a : Word) (b : Byte),
    (a ≠ 0x7FFF → a ≠ 0xFFFF → ∃ t, memWriteByte s a b = .ok t ∧ t.byteAt a = b ∧ SameBut [.byte a] s t) ∧
    (∀ f, memWriteByte s a b = .error f → f = .invalidAddress a s) ∧
    (∀ v f, memWriteWord s a v = .error f → f = .invalidAddress a s) ∧
    (∀ f, memReadByte s a = .error f → f = .invalidAddress a s) ∧
    (∀ f, memReadWord s a = .error f → f = .invalidAddress a s)

/-- R34: a word is stored low byte first: after a word write at `a` a byte read at `a` gives its low byte, a byte read at
`a + 1` its high byte where `a + 1` is valid, a word read the word, and a fetch at `a` decodes it. -/
def Obligations.WordsAreLittleEndian : Prop :=
  ∀ (s t : State) (a v : Word), memWriteWord s a v = .ok t →
    memReadByte t a = .ok (v.extractLsb' 0 8) ∧
    (a + 1 ≠ 0x7FFF → a + 1 ≠ 0xFFFF → memReadByte t (a + 1) = .ok (v.extractLsb' 8 8)) ∧
    memReadWord t a = .ok v ∧
    (∀ i, decodeWord v = .ok i → fetch (t.setPc a) = .ok (i, t.setPc (a + 2)))

/-- R40: `sw`, `sh` and `push` to `0x8000..0xFFFE` store as they do in RAM, both bytes or the one and nothing else, and
later loads and fetches see what they stored; the byte `sh` stored is the low byte of the word fetched at its address and
the high byte of the word fetched at the address below (which cannot be fetched from for `0x8000`). -/
def Obligations.RomIsWritable : Prop :=
  ∀ (s : State) (rd rs : Reg) (imm : Imm5),
    (0x8000 ≤ (effAddr s rs imm).toNat → effAddr s rs imm ≠ 0xFFFF →
      (∃ t, exec (.sw rd rs imm) s = .next t ∧
        SameBut [.byte (effAddr s rs imm), .byte (effAddr s rs imm + 1)] s t ∧
        memReadWord t (effAddr s rs imm) = .ok (s.getReg rd) ∧
        ∀ i, decodeWord (s.getReg rd) = .ok i →
          fetch (t.setPc (effAddr s rs imm)) = .ok (i, t.setPc (effAddr s rs imm + 2))) ∧
      (∃ t, exec (.sh rd rs imm) s = .next t ∧ SameBut [.byte (effAddr s rs imm)] s t ∧
        memReadByte t (effAddr s rs imm) = .ok ((s.getReg rd).extractLsb' 0 8) ∧
        memReadWord t (effAddr s rs imm) = .ok (s.byteAt (effAddr s rs imm + 1) ++ (s.getReg rd).extractLsb' 0 8) ∧
        (∀ i, decodeWord (s.byteAt (effAddr s rs imm + 1) ++ (s.getReg rd).extractLsb' 0 8) = .ok i →
          fetch (t.setPc (effAddr s rs imm)) = .ok (i, t.setPc (effAddr s rs imm + 2))) ∧
        (effAddr s rs imm ≠ 0x8000 →
          ∀ i, decodeWord ((s.getReg rd).extractLsb' 0 8 ++ s.byteAt (effAddr s rs imm - 1)) = .ok i →
            fetch (t.setPc (effAddr s rs imm - 1)) = .ok (i, t.setPc (effAddr s rs imm + 1))))) ∧
    (0x8000 ≤ (s.sp - 2).toNat → s.sp - 2 ≠ 0xFFFF →
      ∃ t, exec (.push rd) s = .next t ∧ SameBut [.sp, .byte (s.sp - 2), .byte (s.sp - 1)] s t ∧
        memReadWord t (s.sp - 2) = .ok (s.getReg rd) ∧
        ∀ i, decodeWord (s.getReg rd) = .ok i → fetch (t.setPc (s.sp - 2)) = .ok (i, t.setPc s.sp))

/-- R41: an odd address works as an even one, for either width: a word read or write takes the bytes at `a` and `a + 1`,
and a fetch at an odd `pc` decodes the word those two bytes make. -/
def Obligations.OddAddressesWork : Prop :=
  ∀ (s : State) (a v : Word), a.toNat % 2 = 1 → a ≠ 0x7FFF → a ≠ 0xFFFF →
    memReadByte s a = .ok (s.byteAt a) ∧ memReadWord s a = .ok (s.byteAt (a + 1) ++ s.byteAt a) ∧
    (∃ t, memWriteByte s a (v.extractLsb' 0 8) = .ok t ∧ t.byteAt a = v.extractLsb' 0 8) ∧
    (∃ t, memWriteWord s a v = .ok t ∧ t.byteAt a = v.extractLsb' 0 8 ∧ t.byteAt (a + 1) = v.extractLsb' 8 8) ∧
    (∀ i, decodeWord (s.byteAt (a + 1) ++ s.byteAt a) = .ok i → fetch (s.setPc a) = .ok (i, s.setPc (a + 2)))

/-- The word a `sw` stored at the next `pc` is the instruction the very next step runs (R48, an inference of the spec). -/
def Obligations.NextFetchSeesStore : Prop :=
  ∀ (s t : State) (rd rs : Reg) (imm : Imm5) (i : Instr),
    exec (.sw rd rs imm) s = .next t → s.pc = effAddr s rs imm → decodeWord (s.getReg rd) = .ok i →
      step t = exec i (t.setPc (s.pc + 2))

/-! ## Encoding (every numeric opcode and func value is the spec's decision D1, log entry 1) -/

/-- Decoding the canonical word of an instruction gives the instruction back, and so does decoding its two bytes. -/
def Obligations.DecodeOfEncode : Prop :=
  ∀ (i : Instr) (rest : List Byte),
    decodeWord (encode i) = .ok i ∧ decode (encodeBytes i ++ rest) = .ok (i, rest)

/-- Encoding what a word decodes to gives the word with the ignored bits cleared (R60; D3): bits 10:8 of C1, 10:5 of C2. -/
def Obligations.EncodeOfDecode : Prop :=
  ∀ (w : Word) (i : Instr), decodeWord w = .ok i →
    encode i = if opcodeField w = 18 then w &&& 0xF8FF else if opcodeField w = 19 then w &&& 0xF81F else w

/-- Words of C1 that differ in bits 10:8 alone, and words of C2 that differ in bits 10:5 alone, are the same instruction
(R60; D3, log entry 3). -/
def Obligations.IgnoredBitsAreIgnored : Prop :=
  ∀ (w w' : Word) (i : Instr), decodeWord w = .ok i →
    (opcodeField w = 18 → w' &&& 0xF8FF = w &&& 0xF8FF → decodeWord w' = .ok i) ∧
    (opcodeField w = 19 → w' &&& 0xF81F = w &&& 0xF81F → decodeWord w' = .ok i)

/-- The illegal words are those of the table of R59 (D1, D2). -/
def Obligations.IllegalWordsExactly : Prop :=
  ∀ w : Word, decodeWord w = .error (.unknown w) ↔
    w ≠ 0x0000 ∧
      ((w.toNat % 32 = 0 ∧ (w.toNat / 2048 = 0 ∨ 10 ≤ w.toNat / 2048)) ∨
       (w.toNat % 32 = 18 ∧ (w.toNat / 2048 = 0 ∨ 16 ≤ w.toNat / 2048)) ∨
       (w.toNat % 32 = 19 ∧ (w.toNat / 2048 = 0 ∨ 4 ≤ w.toNat / 2048)) ∨
       (20 ≤ w.toNat % 32 ∧ w.toNat % 32 ≤ 30) ∨
       (w.toNat % 32 = 31 ∧ w ≠ 0xFFFF))

/-- The field decoder agrees with the match and mask words of R56, row by row and in both directions (D1). -/
def Obligations.DecoderMatchesOpcodeMap : Prop :=
  ∀ (w : Word), ∀ row ∈ opcodeMap, row.covers w = true ↔ ∃ i, decodeWord w = .ok i ∧ i.rowNumber = row.number

/-- A few words of the spec's examples decode to the instruction they are given for (R55, R58, R61; D1). -/
def Obligations.ExampleWordsDecode : Prop :=
  decodeWord 0x2821 = .ok (.addi .x1 .x0 5) ∧ decodeWord 0x1220 = .ok (.add .x1 .x2) ∧
  decodeWord 0xE224 = .ok (.bnq .x1 .x2 0b11100) ∧ decodeWord 0xF22C = .ok (.lw .x1 .x2 0b11110) ∧
  decodeWord 0xFA2F = .ok (.jal .x1 0xFA) ∧ decodeWord 0x0872 = .ok (.push .x3) ∧
  decodeWord 0x0813 = .ok .rfi ∧ decodeWord 0xFFFF = .ok .trap ∧
  decodeWord 0x0000 = .error .debugSentinel ∧ decodeWord 0x001F = .error (.unknown 0x001F)

/-! ## The step -/

/-- R14: a step whose fetch at `s.pc` reads a word that decodes to `i` is `exec i` with `pc` advanced by 2 first; where the
fetch raises or reads zero, `pc` is not advanced; and the instructions that read `pc` as data read the advanced one. -/
def Obligations.StepRunsDecodedInstruction : Prop :=
  ∀ s : State,
    (s.pc ≠ 0x7FFF → s.pc ≠ 0xFFFF → ∀ i, decodeWord (s.byteAt (s.pc + 1) ++ s.byteAt s.pc) = .ok i →
      step s = exec i (s.setPc (s.pc + 2))) ∧
    (s.pc = 0x7FFF ∨ s.pc = 0xFFFF → ∃ f, step s = .fault f ∧ f.left.pc = s.pc) ∧
    (s.pc ≠ 0x7FFF → s.pc ≠ 0xFFFF → s.byteAt (s.pc + 1) ++ s.byteAt s.pc = (0x0000 : Word) →
      ∃ f, step s = .fault f ∧ f.left.pc = s.pc) ∧
    (∀ (rd rs : Reg) (imm : Imm5) (imm8 : Imm8), rd ≠ .x0 →
      (∃ t, exec (.rpc rd) s = .next t ∧ t.getReg rd = s.pc) ∧ (∃ t, exec (.jalr rd rs imm) s = .next t ∧ t.getReg rd = s.pc) ∧
      (∃ t, exec (.jal rd imm8) s = .next t ∧ t.getReg rd = s.pc) ∧ (∃ t, exec .trap s = .next t ∧ t.ppc = s.pc))

/-- R150: a step at `pc = 0x7FFF` or `0xFFFF` stops with `InvalidAddress(pc)` and changes nothing. No even `pc` leads there
in sequence: it wraps from `0xFFFE` to `0x0000`; the odd `0x7FFD` does. -/
def Obligations.FetchAtRegionTopStops : Prop :=
  (∀ s : State, s.pc = 0x7FFF ∨ s.pc = 0xFFFF → step s = .fault (.invalidAddress s.pc s)) ∧
  (∀ a : Word, a.toNat % 2 = 0 → a + 2 ≠ 0x7FFF ∧ a + 2 ≠ 0xFFFF) ∧ (0xFFFE : Word) + 2 = 0x0000 ∧
  (0x7FFD : Word) + 2 = 0x7FFF

/-- R153: a fetched zero word stops with `DebugInterrupt` and changes nothing, at any valid `pc`, odd or even; no
instruction can raise it. -/
def Obligations.ZeroWordStops : Prop :=
  (∀ s : State, s.pc ≠ 0x7FFF → s.pc ≠ 0xFFFF → s.byteAt s.pc = 0x00 → s.byteAt (s.pc + 1) = 0x00 →
    step s = .fault (.debugInterrupt s)) ∧
  ∀ (i : Instr) (s t : State), exec i s ≠ .fault (.debugInterrupt t)

/-- A fetched word no instruction has stops with `UnknownInstruction` of that word, `pc` advanced and nothing else changed
(R151; the state is decision D10, log entry 10). -/
def Obligations.IllegalWordStops : Prop :=
  ∀ (s : State) (w : Word), s.pc ≠ 0x7FFF → s.pc ≠ 0xFFFF → w = s.byteAt (s.pc + 1) ++ s.byteAt s.pc →
    decodeWord w = .error (.unknown w) → step s = .fault (.unknownInstruction w (s.setPc (s.pc + 2)))

/-- Every step completes or ends in one of the three stops; none is refused (R143, R149, R178). -/
def Obligations.StepCompletesOrStops : Prop :=
  ∀ s : State,
    (∃ t, step s = .next t) ∨ step s = .fault (.debugInterrupt s) ∨
    (∃ w, step s = .fault (.unknownInstruction w (s.setPc (s.pc + 2)))) ∨
    (∃ a u, step s = .fault (.invalidAddress a u) ∧ (a = 0x7FFF ∨ a = 0xFFFF))

/-- A stop touches no part of the state but `pc` and `sp`, so not `psr`, `ppc` or `ppsr` (R22, R148), and `pc` is the fetch
address or the next one, so nothing vectors. That the other registers are untouched, and which `pc` is left, is decision
D10 (R151, R152; log entry 10). -/
def Obligations.StopsSaveNothing : Prop :=
  ∀ (s : State) (f : Fault), step s = .fault f →
    SameBut [.pc, .sp] s f.left ∧ (f.left.pc = s.pc ∨ f.left.pc = s.pc + 2)

/-- Execution raises only `InvalidAddress` of one of the two addresses, and only in `lh lhu lw sh sw push pop` (R146). -/
def Obligations.OnlyMemoryInstructionsStop : Prop :=
  ∀ (i : Instr) (s : State) (f : Fault), exec i s = .fault f →
    accessesMemory i = true ∧ ∃ a, (a = 0x7FFF ∨ a = 0xFFFF) ∧ f = .invalidAddress a f.left

/-- The state an execution `InvalidAddress` leaves: `pc` stays `pc_next`, nothing else is changed but `sp`, which `push`
has decremented (R101, R115, R116, R130, R152; decisions D10 and D17, log entries 10 and 15). -/
def Obligations.ExecutionInvalidAddressState : Prop :=
  (∀ (s : State) (rd rs : Reg) (imm : Imm5), effAddr s rs imm = 0x7FFF ∨ effAddr s rs imm = 0xFFFF →
    exec (.lh rd rs imm) s = .fault (.invalidAddress (effAddr s rs imm) s) ∧
    exec (.lhu rd rs imm) s = .fault (.invalidAddress (effAddr s rs imm) s) ∧
    exec (.lw rd rs imm) s = .fault (.invalidAddress (effAddr s rs imm) s) ∧
    exec (.sh rd rs imm) s = .fault (.invalidAddress (effAddr s rs imm) s) ∧
    exec (.sw rd rs imm) s = .fault (.invalidAddress (effAddr s rs imm) s)) ∧
  (∀ (s : State) (rd : Reg), s.sp = 0x8001 ∨ s.sp = 0x0001 →
    exec (.push rd) s = .fault (.invalidAddress (s.sp - 2) (s.setSp (s.sp - 2)))) ∧
  (∀ (s : State) (rd : Reg), s.sp = 0x7FFF ∨ s.sp = 0xFFFF → exec (.pop rd) s = .fault (.invalidAddress s.sp s))

/-! ## R class (operand roles: decision D5, log entry 5) -/

/-- `mov`: `x[rd] <- x[rs]`. -/
def Obligations.MovCopiesSource : Prop :=
  ∀ (s : State) (rd rs : Reg), ∃ t, exec (.mov rd rs) s = .next t ∧ WritesReg rd (s.getReg rs) s t

/-- `add` and `sub` are modulo 2^16; the minuend is `rd`. -/
def Obligations.AddSubModulo : Prop :=
  ∀ (s : State) (rd rs : Reg),
    (∃ t v, exec (.add rd rs) s = .next t ∧ WritesReg rd v s t ∧
      v.toNat = ((s.getReg rd).toNat + (s.getReg rs).toNat) % 65536) ∧
    (∃ t v, exec (.sub rd rs) s = .next t ∧ WritesReg rd v s t ∧
      v.toNat = ((s.getReg rd).toNat + 65536 - (s.getReg rs).toNat) % 65536)

/-- `and`, `or`, `xor` are bitwise. -/
def Obligations.BitwiseOperations : Prop :=
  ∀ (s : State) (rd rs : Reg),
    (∃ t v, exec (.and rd rs) s = .next t ∧ WritesReg rd v s t ∧
      ∀ k, v.getLsbD k = ((s.getReg rd).getLsbD k && (s.getReg rs).getLsbD k)) ∧
    (∃ t v, exec (.or rd rs) s = .next t ∧ WritesReg rd v s t ∧
      ∀ k, v.getLsbD k = ((s.getReg rd).getLsbD k || (s.getReg rs).getLsbD k)) ∧
    (∃ t v, exec (.xor rd rs) s = .next t ∧ WritesReg rd v s t ∧
      ∀ k, v.getLsbD k = ((s.getReg rd).getLsbD k ^^ (s.getReg rs).getLsbD k))

/-- The shifts, with `n` the low four bits of `x[rs]` (decision D4, log entry 4): `sll` multiplies, `srl` divides, `sra`
copies bit 15 in from the top, which is floor division of the signed value (G3, log entry 21). -/
def Obligations.ShiftResults : Prop :=
  ∀ (s : State) (rd rs : Reg),
    let x := s.getReg rd
    let n := (s.getReg rs).toNat % 16
    (∃ t v, exec (.sll rd rs) s = .next t ∧ WritesReg rd v s t ∧ v.toNat = x.toNat * 2 ^ n % 65536) ∧
    (∃ t v, exec (.srl rd rs) s = .next t ∧ WritesReg rd v s t ∧ v.toNat = x.toNat / 2 ^ n) ∧
    (∃ t v, exec (.sra rd rs) s = .next t ∧ WritesReg rd v s t ∧
      (∀ k, k < 16 → v.getLsbD k = if k + n < 16 then x.getLsbD (k + n) else x.getLsbD 15) ∧
      v.toInt = x.toInt / (2 ^ n : Int))

/-- The source's round trip (R82): for `rd ≠ rs`, `add` then `sub` restores everything; for `rd = rs ≠ x0` the pair leaves
0 in `rd`; for `rd = x0` both are no-ops. -/
def Obligations.AddThenSubRestores : Prop :=
  ∀ (s : State) (rd rs : Reg), ∃ t u, exec (.add rd rs) s = .next t ∧ exec (.sub rd rs) t = .next u ∧
    SameBut [.reg rd] s u ∧ (rd = .x0 → t = s ∧ u = s) ∧
    u.getReg rd = if rd = rs then 0 else s.getReg rd

/-! ## Immediates -/

/-- `addi` and `subi` take `x[rs]` and the zero-extended immediate, modulo 2^16 (R83 to R85; the shape of `subi` is the
spec's inference). -/
def Obligations.AddiSubiModulo : Prop :=
  ∀ (s : State) (rd rs : Reg) (imm : Imm5),
    (∃ t v, exec (.addi rd rs imm) s = .next t ∧ WritesReg rd v s t ∧
      v.toNat = ((s.getReg rs).toNat + imm.toNat) % 65536) ∧
    (∃ t v, exec (.subi rd rs imm) s = .next t ∧ WritesReg rd v s t ∧
      v.toNat = ((s.getReg rs).toNat + 65536 - imm.toNat) % 65536)

/-- R110: `lil` and `lih` overwrite the whole of `rd` with a value that depends on no register: `imm8` in the low byte, or
in the high byte, zeros in the other; `imm8` is bits 15:8 of the word. -/
def Obligations.LoadImmediatesOverwrite : Prop :=
  (∀ (s : State) (rd : Reg) (imm : Imm8),
    (∃ t v, exec (.lil rd imm) s = .next t ∧ WritesReg rd v s t ∧ v.toNat = imm.toNat) ∧
    (∃ t v, exec (.lih rd imm) s = .next t ∧ WritesReg rd v s t ∧ v.toNat = 256 * imm.toNat)) ∧
  ∀ (w : Word) (rd : Reg) (imm : Imm8), decodeWord w = .ok (.lil rd imm) ∨ decodeWord w = .ok (.lih rd imm) →
    imm.toNat = w.toNat / 256

/-! ## Control transfer -/

/-- R87: each branch compares `x[rd]` (left) with `x[rs]` (right), for equality, signed or unsigned; taken, only `pc`
changes; not taken, nothing does, so `pc` stays `pc_next`; none can stop. -/
def Obligations.BranchesCompare : Prop :=
  ∀ (s : State) (rd rs : Reg) (imm : Imm5),
    let a := s.getReg rd
    let b := s.getReg rs
    let taken := s.setPc (s.pc - 2 + imm.signExtend 16)
    exec (.beq rd rs imm) s = .next (if a = b then taken else s) ∧
    exec (.bnq rd rs imm) s = .next (if a = b then s else taken) ∧
    exec (.blt rd rs imm) s = .next (if a.toInt < b.toInt then taken else s) ∧
    exec (.bge rd rs imm) s = .next (if a.toInt < b.toInt then s else taken) ∧
    exec (.bltu rd rs imm) s = .next (if a.toNat < b.toNat then taken else s) ∧
    exec (.bgeu rd rs imm) s = .next (if a.toNat < b.toNat then s else taken)

/-- R88: the target of a taken branch and of `jal` is the instruction's own address plus the signed byte offset, modulo
2^16; nothing is checked at the transfer; a target that cannot be fetched from stops the next step. -/
def Obligations.TransferTargetsRelative : Prop :=
  (∀ (s : State) (rd rs : Reg) (imm : Imm5) (i : Instr),
    (i = .beq rd rs imm ∧ s.getReg rd = s.getReg rs) ∨
    (i = .bnq rd rs imm ∧ s.getReg rd ≠ s.getReg rs) ∨
    (i = .blt rd rs imm ∧ (s.getReg rd).toInt < (s.getReg rs).toInt) ∨
    (i = .bge rd rs imm ∧ (s.getReg rs).toInt ≤ (s.getReg rd).toInt) ∨
    (i = .bltu rd rs imm ∧ (s.getReg rd).toNat < (s.getReg rs).toNat) ∨
    (i = .bgeu rd rs imm ∧ (s.getReg rs).toNat ≤ (s.getReg rd).toNat) →
      ∃ t, exec i s = .next t ∧ (t.pc.toNat : Int) = ((s.pc.toNat : Int) - 2 + imm.toInt) % 65536 ∧
        (t.pc = 0x7FFF ∨ t.pc = 0xFFFF → step t = .fault (.invalidAddress t.pc t))) ∧
  (∀ (s : State) (rd : Reg) (imm : Imm8),
    ∃ t, exec (.jal rd imm) s = .next t ∧ (t.pc.toNat : Int) = ((s.pc.toNat : Int) - 2 + imm.toInt) % 65536 ∧
      (t.pc = 0x7FFF ∨ t.pc = 0xFFFF → step t = .fault (.invalidAddress t.pc t)))

/-- `jal`: link `pc_next`, then jump relative to the `jal` itself (R96). -/
def Obligations.JalLinksAndJumps : Prop :=
  ∀ (s : State) (rd : Reg) (imm : Imm8), ∃ t, exec (.jal rd imm) s = .next t ∧
    t.getReg rd = (if rd = .x0 then 0 else s.pc) ∧ t.pc = s.pc - 2 + imm.signExtend 16 ∧
    SameBut [.reg rd, .pc] s t

/-- `jalr`: link `pc_next`, then jump to `x[rs]` plus the signed offset; where `rd = rs ≠ x0` the base is the link value
(R95; decision D7, log entry 7). -/
def Obligations.JalrLinksThenJumps : Prop :=
  ∀ (s : State) (rd rs : Reg) (imm : Imm5), ∃ t, exec (.jalr rd rs imm) s = .next t ∧
    t.getReg rd = (if rd = .x0 then 0 else s.pc) ∧
    t.pc = (if rd = rs ∧ rd ≠ .x0 then s.pc else s.getReg rs) + imm.signExtend 16 ∧
    SameBut [.reg rd, .pc] s t

/-! ## Loads and stores -/

/-- R100: the effective address is `x[rs]` plus the signed, unscaled offset modulo 2^16; the base register is not modified
but where a load's destination is the base; with `rs = x0` it reaches `0x0000..0x000F` and `0xFFF0..0xFFFF`. -/
def Obligations.EffectiveAddress : Prop :=
  ∀ (s : State) (rd rs : Reg) (imm : Imm5),
    ((effAddr s rs imm).toNat : Int) = ((s.getReg rs).toNat + imm.toInt) % 65536 ∧
    (-16 ≤ imm.toInt ∧ imm.toInt ≤ 15) ∧
    (rs = .x0 → (effAddr s rs imm).toNat ≤ 0x000F ∨ 0xFFF0 ≤ (effAddr s rs imm).toNat) ∧
    (∀ i ∈ [Instr.sh rd rs imm, .sw rd rs imm], ∀ t, exec i s = .next t → t.getReg rs = s.getReg rs) ∧
    (rs ≠ rd → ∀ i ∈ [Instr.lh rd rs imm, .lhu rd rs imm, .lw rd rs imm], ∀ t, exec i s = .next t →
      t.getReg rs = s.getReg rs)

/-- `lh`, `lhu` and `lw` at a valid address complete: `rd` gets the byte sign-extended, the byte zero-extended, or the
little-endian word, and nothing else changes (R102 to R104). -/
def Obligations.LoadResults : Prop :=
  ∀ (s : State) (rd rs : Reg) (imm : Imm5), effAddr s rs imm ≠ 0x7FFF → effAddr s rs imm ≠ 0xFFFF →
    (∃ t v, exec (.lh rd rs imm) s = .next t ∧ WritesReg rd v s t ∧ v.toInt = (s.byteAt (effAddr s rs imm)).toInt) ∧
    (∃ t v, exec (.lhu rd rs imm) s = .next t ∧ WritesReg rd v s t ∧ v.toNat = (s.byteAt (effAddr s rs imm)).toNat) ∧
    (∃ t v, exec (.lw rd rs imm) s = .next t ∧ WritesReg rd v s t ∧
      v.toNat = 256 * (s.byteAt (effAddr s rs imm + 1)).toNat + (s.byteAt (effAddr s rs imm)).toNat)

/-- `sh` and `sw` at a valid address complete: `sh` stores the low byte of `x[rd]` at `ea` and nothing else, `sw` both
bytes at `ea` and `ea + 1` and nothing else (R105, R106). -/
def Obligations.StoreResults : Prop :=
  ∀ (s : State) (rd rs : Reg) (imm : Imm5), effAddr s rs imm ≠ 0x7FFF → effAddr s rs imm ≠ 0xFFFF →
    (∃ t, exec (.sh rd rs imm) s = .next t ∧
      (t.byteAt (effAddr s rs imm)).toNat = (s.getReg rd).toNat % 256 ∧
      SameBut [.byte (effAddr s rs imm)] s t) ∧
    (∃ t, exec (.sw rd rs imm) s = .next t ∧
      (t.byteAt (effAddr s rs imm)).toNat = (s.getReg rd).toNat % 256 ∧
      (t.byteAt (effAddr s rs imm + 1)).toNat = (s.getReg rd).toNat / 256 ∧
      SameBut [.byte (effAddr s rs imm), .byte (effAddr s rs imm + 1)] s t)

/-- R108: `sw` then `lw` at the same valid address gives the stored value; `sh` then `lh` gives the sign-extended low byte,
and the byte above is unchanged, seen by word reads before and after. -/
def Obligations.StoreThenLoad : Prop :=
  ∀ (s : State) (rd rd2 rs : Reg) (imm : Imm5), effAddr s rs imm ≠ 0x7FFF → effAddr s rs imm ≠ 0xFFFF →
    (∃ t u, exec (.sw rd rs imm) s = .next t ∧ exec (.lw rd2 rs imm) t = .next u ∧
      u.getReg rd2 = if rd2 = .x0 then 0 else s.getReg rd) ∧
    (∃ t u w w', exec (.sh rd rs imm) s = .next t ∧ exec (.lh rd2 rs imm) t = .next u ∧
      u.getReg rd2 = (if rd2 = .x0 then 0 else ((s.getReg rd).extractLsb' 0 8).signExtend 16) ∧
      memReadWord s (effAddr s rs imm) = .ok w ∧ memReadWord t (effAddr s rs imm) = .ok w' ∧
      w'.toNat / 256 = w.toNat / 256)

/-! ## Stack and control registers -/

/-- `push` completes unless the decremented `sp` is one of the two invalid addresses: `sp` goes down by 2, the value is
stored little-endian at the new `sp`, nothing else changes (R115). -/
def Obligations.PushResult : Prop :=
  ∀ (s : State) (rd : Reg), s.sp - 2 ≠ 0x7FFF → s.sp - 2 ≠ 0xFFFF →
    ∃ t, exec (.push rd) s = .next t ∧ t.sp = s.sp - 2 ∧
      (t.byteAt (s.sp - 2)).toNat = (s.getReg rd).toNat % 256 ∧
      (t.byteAt (s.sp - 1)).toNat = (s.getReg rd).toNat / 256 ∧
      SameBut [.sp, .byte (s.sp - 2), .byte (s.sp - 1)] s t

/-- `pop` completes unless `sp` is one of the two invalid addresses: `rd` gets the word at the old `sp`, `sp` goes up by 2,
for `rd = x0` too (R116; decision D17, log entry 15). -/
def Obligations.PopResult : Prop :=
  ∀ (s : State) (rd : Reg), s.sp ≠ 0x7FFF → s.sp ≠ 0xFFFF →
    ∃ t v, exec (.pop rd) s = .next t ∧ t.sp = s.sp + 2 ∧ t.getReg rd = (if rd = .x0 then 0 else v) ∧
      v.toNat = 256 * (s.byteAt (s.sp + 1)).toNat + (s.byteAt s.sp).toNat ∧ SameBut [.reg rd, .sp] s t

/-- What is pushed is popped, and `sp` is restored (R131, an inference of the spec). -/
def Obligations.PushThenPop : Prop :=
  ∀ (s : State) (rd rd2 : Reg), s.sp ≠ 0x0001 → s.sp ≠ 0x8001 →
    ∃ t u, exec (.push rd) s = .next t ∧ exec (.pop rd2) t = .next u ∧ u.sp = s.sp ∧
      u.getReg rd2 = if rd2 = .x0 then 0 else s.getReg rd

/-- `rpc rsp rpsr rppc rppsr` copy the register they name into `rd` and change nothing else; `rpc` reads `pc_next` (R117 to
R119, R122, R123). -/
def Obligations.ReadControlRegisters : Prop :=
  ∀ (s : State) (rd : Reg),
    (∃ t, exec (.rpc rd) s = .next t ∧ WritesReg rd s.pc s t) ∧
    (∃ t, exec (.rsp rd) s = .next t ∧ WritesReg rd s.sp s t) ∧
    (∃ t, exec (.rpsr rd) s = .next t ∧ WritesReg rd s.psr s t) ∧
    (∃ t, exec (.rppc rd) s = .next t ∧ WritesReg rd s.ppc s t) ∧
    (∃ t, exec (.rppsr rd) s = .next t ∧ WritesReg rd s.ppsr s t)

/-- `wsp wpsr wppc wppsr` copy all 16 bits of `x[rd]` into the register they name and change nothing else (R124, R125, R128,
R129; every bit of `psr` is storage by decision D15, log entry 13). -/
def Obligations.WriteControlRegisters : Prop :=
  ∀ (s : State) (rd : Reg),
    (∃ t, exec (.wsp rd) s = .next t ∧ t.sp = s.getReg rd ∧ SameBut [.sp] s t) ∧
    (∃ t, exec (.wpsr rd) s = .next t ∧ t.psr = s.getReg rd ∧ SameBut [.psr] s t) ∧
    (∃ t, exec (.wppc rd) s = .next t ∧ t.ppc = s.getReg rd ∧ SameBut [.ppc] s t) ∧
    (∃ t, exec (.wppsr rd) s = .next t ∧ t.ppsr = s.getReg rd ∧ SameBut [.ppsr] s t)

/-- `tlr` and `thr` are written by `wtlr`, `wthr` and `rtr` and read by `rtlr`, `rthr` and `wtr`; writing them does not
change `tr`, and `wtr` does not change them; `tr` is split and combined only by `rtr` and `wtr` (R19). Every instruction
but `rtr`, `wtr`, `wtlr` and `wthr` leaves all three as they were; that `tr` is left, so does not count, is decision D9
(R18; log entry 9). -/
def Obligations.TimerStagingHalves : Prop :=
  ∀ (s : State) (rd : Reg),
    (∃ t, exec (.wtlr rd) s = .next t ∧ t.tlr = s.getReg rd ∧ SameBut [.tlr] s t) ∧
    (∃ t, exec (.wthr rd) s = .next t ∧ t.thr = s.getReg rd ∧ SameBut [.thr] s t) ∧
    (∃ t, exec (.rtlr rd) s = .next t ∧ WritesReg rd s.tlr s t) ∧
    (∃ t, exec (.rthr rd) s = .next t ∧ WritesReg rd s.thr s t) ∧
    (∃ t, exec .rtr s = .next t ∧ t.thr.toNat = s.tr.toNat / 65536 ∧ t.tlr.toNat = s.tr.toNat % 65536 ∧
      SameBut [.thr, .tlr] s t) ∧
    (∃ t, exec .wtr s = .next t ∧ t.tr.toNat = 65536 * s.thr.toNat + s.tlr.toNat ∧ SameBut [.tr] s t) ∧
    (∀ (i : Instr) (t : State), exec i s = .next t →
      i ≠ .rtr → i ≠ .wtr → (∀ r, i ≠ .wtlr r) → (∀ r, i ≠ .wthr r) → t.tr = s.tr ∧ t.tlr = s.tlr ∧ t.thr = s.thr)

/-! ## The trap -/

/-- R155: `trap` saves `pc_next` in `ppc` and the old `psr` in `ppsr`, sets `psr` to exactly `0x0002` and `pc` to `0x0000`,
and changes nothing else; the step that fetches the word `0xFFFF` is that entry. -/
def Obligations.TrapEntry : Prop :=
  (∀ s : State, ∃ t, exec .trap s = .next t ∧ t.ppc = s.pc ∧ t.ppsr = s.psr ∧ t.psr = 0x0002 ∧ t.pc = 0x0000 ∧
    SameBut [.ppc, .ppsr, .psr, .pc] s t) ∧
  (∀ s : State, s.pc ≠ 0x7FFF → s.pc ≠ 0xFFFF → s.byteAt s.pc = 0xFF → s.byteAt (s.pc + 1) = 0xFF →
    ∃ t, step s = .next t ∧ t.ppc = s.pc + 2 ∧ t.ppsr = s.psr ∧ t.psr = 0x0002 ∧ t.pc = 0x0000)

/-- R157: `rfi` restores `pc` and `psr` from the saved registers, whatever `psr` holds, and changes nothing else; so after
a trap, from any state with the saved registers as the trap left them, it restores exactly what the trap saved; what
`wppc` and `wppsr` wrote is what it restores. -/
def Obligations.TrapReturn : Prop :=
  (∀ s : State, ∃ t, exec .rfi s = .next t ∧ t.pc = s.ppc ∧ t.psr = s.ppsr ∧ SameBut [.pc, .psr] s t) ∧
  (∀ s t u v : State, exec .trap s = .next t → u.ppc = t.ppc → u.ppsr = t.ppsr → exec .rfi u = .next v →
    v.pc = s.pc ∧ v.psr = s.psr) ∧
  (∀ (s t u v : State) (r q : Reg), exec (.wppc r) s = .next t → exec (.wppsr q) t = .next u → exec .rfi u = .next v →
    v.pc = s.getReg r ∧ v.psr = t.getReg q)

/-- R158: with the zero word at `0x0000`, the step that traps completes, and the next stops with `DebugInterrupt`, the
registers as the trap left them. -/
def Obligations.EmptyTrapHandlerStops : Prop :=
  ∀ s : State, s.pc ≠ 0x7FFF → s.pc ≠ 0xFFFF → s.byteAt s.pc = 0xFF → s.byteAt (s.pc + 1) = 0xFF →
    s.byteAt 0x0000 = 0x00 → s.byteAt 0x0001 = 0x00 →
      ∃ t, step s = .next t ∧ step t = .fault (.debugInterrupt t) ∧
        t.pc = 0x0000 ∧ t.psr = 0x0002 ∧ t.ppc = s.pc + 2 ∧ t.ppsr = s.psr

/-! ## The whole machine -/

/-- What each instruction may write: `rd` as in R12, `pc` as in R15, the control registers as in R21, memory as in R30;
every other part is as it was. -/
def Obligations.InstructionFrames : Prop :=
  ∀ (i : Instr) (s t : State), exec i s = .next t → SameBut (writtenParts i s) s t

/-- A completed step changes a control register only by an instruction R21 lists as its writer. `tr` in particular does
not count (decision D9, log entry 9). -/
def Obligations.ControlRegisterWriters : Prop :=
  ∀ s t : State, step s = .next t → ∃ i u, fetch s = .ok (i, u) ∧
    (t.psr ≠ s.psr → i = .trap ∨ i = .rfi ∨ ∃ r, i = .wpsr r) ∧
    (t.ppc ≠ s.ppc → i = .trap ∨ ∃ r, i = .wppc r) ∧
    (t.ppsr ≠ s.ppsr → i = .trap ∨ ∃ r, i = .wppsr r) ∧
    (t.sp ≠ s.sp → ∃ r, i = .wsp r ∨ i = .push r ∨ i = .pop r) ∧
    (t.tr ≠ s.tr → i = .wtr) ∧
    (t.tlr ≠ s.tlr → i = .rtr ∨ ∃ r, i = .wtlr r) ∧
    (t.thr ≠ s.thr → i = .rtr ∨ ∃ r, i = .wthr r)

/-- No bit of `psr` changes what any instruction does: an instruction that neither reads nor writes `psr` answers the same
with any other `psr`, which it leaves alone; `wpsr` and `rfi` answer the same whatever `psr` held; and the fetch does not
look at it (R17, R161, R163; decisions D15 and D19, log entries 13 and 16). -/
def Obligations.PsrChangesNoBehaviour : Prop :=
  (∀ (i : Instr) (s : State) (v : Word), touchesPsr i = false → exec i (s.setPsr v) = resultWithPsr v (exec i s)) ∧
  (∀ (s : State) (v : Word) (r : Reg), exec (.wpsr r) (s.setPsr v) = exec (.wpsr r) s) ∧
  (∀ (s : State) (v : Word), exec .rfi (s.setPsr v) = exec .rfi s) ∧
  (∀ (s u : State) (v : Word) (i : Instr), fetch s = .ok (i, u) → fetch (s.setPsr v) = .ok (i, u.setPsr v))

/-- Every step keeps memory in its canonical form: addresses rising and inside the 16-bit space, no listed padding. The form
is the model's choice (DESIGN CHOICE, log entry 19); the spec gives the bytes, not their representation. -/
def Obligations.StepKeepsMemoryCanonical : Prop :=
  ∀ s t : State, MemoryCanonical s → step s = .next t → MemoryCanonical t

/-- Every machine that is constructed starts with memory in its canonical form; reset does. The form is the model's choice
(DESIGN CHOICE, log entry 19); the images and the zero padding are R33. -/
def Obligations.ConstructedMemoryCanonical : Prop :=
  MemoryCanonical State.reset ∧ ∀ (c : Config.Images) (s : State), construct c = .ok s → MemoryCanonical s

/-- `run` returns the first stop, or the first state after a step whose `pc` is the stop address, whichever comes first; at
least one step is made; without a stop address only a stop ends it; no run is refused (R182; the fuel is the model's, log entry 22). -/
def Obligations.RunEndsAtFirstStopOrAddress : Prop :=
  ∀ (stopAt : Option Word) (fuel : Nat) (s : State),
    (∀ u, run stopAt fuel s = .reachedStopAddress u →
      stopAt = some u.pc ∧ ∃ k, 1 ≤ k ∧ k ≤ fuel ∧ stepsTo k s u ∧
        ∀ j v, 1 ≤ j → j < k → stepsTo j s v → stopAt ≠ some v.pc) ∧
    (∀ f, run stopAt fuel s = .stopped f →
      ∃ k u, k < fuel ∧ stepsTo k s u ∧ step u = .fault f ∧
        ∀ j v, 1 ≤ j → j ≤ k → stepsTo j s v → stopAt ≠ some v.pc) ∧
    (∀ u, run stopAt fuel s = .outOfFuel u →
      stepsTo fuel s u ∧ ∀ j v, 1 ≤ j → j ≤ fuel → stepsTo j s v → stopAt ≠ some v.pc) ∧
    (∀ r, run stopAt fuel s ≠ .refused r)
end

