-- ==== Sys2Proof/Laws/Decode.lean ====
section
/-! SUPPORT. The fields of a packed word (R51, R65). -/

namespace Sys2Proof

@[simp] theorem Reg.ofBits_bits (r : Reg) : Reg.ofBits r.bits = r := by cases r <;> rfl

@[simp] theorem Reg.bits_ofBits (b : BitVec 3) : (Reg.ofBits b).bits = b := by
  revert b
  decide

/-- The low field of two fields joined. -/
theorem extract_append_low {m n : Nat} (a : BitVec m) (b : BitVec n) : (a ++ b).extractLsb' 0 n = b := by
  apply BitVec.eq_of_getLsbD_eq
  intro i hi
  simp [hi, BitVec.getLsbD_append]

/-- A field above the lower of two fields joined lies in the upper one. -/
theorem extract_append_high {m n k : Nat} (a : BitVec m) (b : BitVec n) (w : Nat) :
    (a ++ b).extractLsb' (n + k) w = a.extractLsb' k w := by
  apply BitVec.eq_of_getLsbD_eq
  intro i hi
  have h1 : ¬ n + k + i < n := by omega
  have h2 : n + k + i - n = k + i := by omega
  simp [hi, BitVec.getLsbD_append, h1, h2]

theorem extract_all {n : Nat} (a : BitVec n) : a.extractLsb' 0 n = a := by
  apply BitVec.eq_of_getLsbD_eq
  intro i hi
  simp [hi]

/-- Two adjacent fields joined are one field. -/
theorem extract_adjacent {k : Nat} (w : BitVec k) (lo m n : Nat) :
    w.extractLsb' (lo + n) m ++ w.extractLsb' lo n = w.extractLsb' lo (m + n) := by
  apply BitVec.eq_of_getLsbD_eq
  intro i hi
  rw [BitVec.getLsbD_append]
  by_cases h : i < n
  · simp [h, hi]
  · have h1 : i - n < m := by omega
    have h2 : lo + n + (i - n) = lo + i := by omega
    simp [h, hi, h1, h2]

@[simp] theorem opcodeField_packRI (f : BitVec 5) (rs rd : Reg) (op : BitVec 5) :
    opcodeField (packRI f rs rd op) = op := extract_append_low (f ++ rs.bits ++ rd.bits) op

@[simp] theorem rdField_packRI (f : BitVec 5) (rs rd : Reg) (op : BitVec 5) :
    rdField (packRI f rs rd op) = rd.bits :=
  (extract_append_high (k := 0) (f ++ rs.bits ++ rd.bits) op 3).trans (extract_append_low (f ++ rs.bits) rd.bits)

@[simp] theorem rsField_packRI (f : BitVec 5) (rs rd : Reg) (op : BitVec 5) :
    rsField (packRI f rs rd op) = rs.bits :=
  (extract_append_high (k := 3) (f ++ rs.bits ++ rd.bits) op 3).trans <|
    (extract_append_high (k := 0) (f ++ rs.bits) rd.bits 3).trans (extract_append_low f rs.bits)

@[simp] theorem funcField_packRI (f : BitVec 5) (rs rd : Reg) (op : BitVec 5) :
    funcField (packRI f rs rd op) = f :=
  (extract_append_high (k := 6) (f ++ rs.bits ++ rd.bits) op 5).trans <|
    (extract_append_high (k := 3) (f ++ rs.bits) rd.bits 5).trans <|
      (extract_append_high (k := 0) f rs.bits 5).trans (extract_all f)

@[simp] theorem opcodeField_packI8 (imm : Imm8) (rd : Reg) (op : BitVec 5) :
    opcodeField (packI8 imm rd op) = op := extract_append_low (imm ++ rd.bits) op

@[simp] theorem rdField_packI8 (imm : Imm8) (rd : Reg) (op : BitVec 5) : rdField (packI8 imm rd op) = rd.bits :=
  (extract_append_high (k := 0) (imm ++ rd.bits) op 3).trans (extract_append_low imm rd.bits)

@[simp] theorem imm8Field_packI8 (imm : Imm8) (rd : Reg) (op : BitVec 5) : imm8Field (packI8 imm rd op) = imm :=
  (extract_append_high (k := 3) (imm ++ rd.bits) op 8).trans <|
    (extract_append_high (k := 0) imm rd.bits 8).trans (extract_all imm)

/-- A word is its four fields (R51, R52). -/
theorem word_fields (w : Word) : packRI (funcField w) (Reg.ofBits (rsField w)) (Reg.ofBits (rdField w)) (opcodeField w) = w := by
  unfold packRI
  rw [Reg.bits_ofBits, Reg.bits_ofBits]
  have h1 : funcField w ++ rsField w = w.extractLsb' 8 (5 + 3) := extract_adjacent w 8 5 3
  have h2 : w.extractLsb' 8 (5 + 3) ++ rdField w = w.extractLsb' 5 (5 + 3 + 3) := extract_adjacent w 5 (5 + 3) 3
  have h3 : w.extractLsb' 5 (5 + 3 + 3) ++ opcodeField w = w.extractLsb' 0 (5 + 3 + 3 + 5) :=
    extract_adjacent w 0 (5 + 3 + 3) 5
  rw [h1, h2, h3]
  exact extract_all w

/-- A word is its three fields in the I8 format (R51, R52). -/
theorem word_fields_I8 (w : Word) : packI8 (imm8Field w) (Reg.ofBits (rdField w)) (opcodeField w) = w := by
  unfold packI8
  rw [Reg.bits_ofBits]
  have h1 : imm8Field w ++ rdField w = w.extractLsb' 5 (8 + 3) := extract_adjacent w 5 8 3
  have h2 : w.extractLsb' 5 (8 + 3) ++ opcodeField w = w.extractLsb' 0 (8 + 3 + 5) := extract_adjacent w 0 (8 + 3) 5
  rw [h1, h2]
  exact extract_all w

/-! The two masks of the opcode map (R56). -/

/-- The bits of a packed word. -/
theorem getLsbD_packRI (f : BitVec 5) (rs rd : Reg) (op : BitVec 5) (i : Nat) :
    (packRI f rs rd op).getLsbD i =
      if i < 5 then op.getLsbD i else if i < 8 then rd.bits.getLsbD (i - 5)
      else if i < 11 then rs.bits.getLsbD (i - 8) else f.getLsbD (i - 11) := by
  have h : (packRI f rs rd op).getLsbD i =
      if i < 5 then op.getLsbD i else (f ++ rs.bits ++ rd.bits).getLsbD (i - 5) := BitVec.getLsbD_append
  rw [h, BitVec.getLsbD_append, BitVec.getLsbD_append, Nat.sub_sub, Nat.sub_sub]
  split_ifs <;> first | rfl | omega

/-- The mask of an I5 or I8 row keeps the opcode. -/
theorem mask_opcode (w : Word) : w &&& 0x001F = packRI 0 .x0 .x0 (opcodeField w) := by
  apply BitVec.eq_of_getLsbD_eq
  intro i hi
  rw [BitVec.getLsbD_and, getLsbD_packRI]
  interval_cases i <;> simp [opcodeField, Reg.bits]

/-- The mask of an R, C1 or C2 row keeps the func and the opcode. -/
theorem mask_func_opcode (w : Word) : w &&& 0xF81F = packRI (funcField w) .x0 .x0 (opcodeField w) := by
  apply BitVec.eq_of_getLsbD_eq
  intro i hi
  rw [BitVec.getLsbD_and, getLsbD_packRI]
  interval_cases i <;> simp [opcodeField, funcField, Reg.bits]

/-! The two bytes of a word (R34). -/

@[simp] theorem lowByte_wordOfBytes (lo hi : Byte) : lowByte (wordOfBytes lo hi) = lo := extract_append_low hi lo

@[simp] theorem highByte_wordOfBytes (lo hi : Byte) : highByte (wordOfBytes lo hi) = hi :=
  (extract_append_high (k := 0) hi lo 8).trans (extract_all hi)

@[simp] theorem wordOfBytes_low_high (w : Word) : wordOfBytes (lowByte w) (highByte w) = w :=
  (extract_adjacent w 0 8 8).trans (extract_all w)

theorem wordOfBytes_toNat (lo hi : Byte) : (wordOfBytes lo hi).toNat = 256 * hi.toNat + lo.toNat := by
  have h : (wordOfBytes lo hi).toNat = hi.toNat <<< 8 ||| lo.toNat := BitVec.toNat_append hi lo
  rw [h, ← Nat.shiftLeft_add_eq_or_of_lt lo.isLt, Nat.shiftLeft_eq]
  omega

theorem lowByte_toNat (w : Word) : (lowByte w).toNat = w.toNat % 256 := by
  simp [lowByte, BitVec.extractLsb'_toNat]

theorem highByte_toNat (w : Word) : (highByte w).toNat = w.toNat / 256 := by
  have h := w.isLt
  simp [highByte, BitVec.extractLsb'_toNat, Nat.shiftRight_eq_div_pow]
  omega

/-! Where the decoder has no instruction (R59), and its two number fields. -/

theorem opcodeField_toNat (w : Word) : (opcodeField w).toNat = w.toNat % 32 := by
  simp [opcodeField, BitVec.extractLsb'_toNat]

theorem funcField_toNat (w : Word) : (funcField w).toNat = w.toNat / 2048 := by
  have h := w.isLt
  simp [funcField, BitVec.extractLsb'_toNat, Nat.shiftRight_eq_div_pow]
  omega

theorem decodeR_none_iff (f : Nat) (rd rs : Reg) : decodeR f rd rs = none ↔ f = 0 ∨ 10 ≤ f := by
  by_cases h : f < 10
  · interval_cases f <;> simp [decodeR]
  · obtain ⟨k, rfl⟩ : ∃ k, f = k + 10 := ⟨f - 10, by omega⟩
    simp [decodeR]

theorem decodeC1_none_iff (f : Nat) (rd : Reg) : decodeC1 f rd = none ↔ f = 0 ∨ 16 ≤ f := by
  by_cases h : f < 16
  · interval_cases f <;> simp [decodeC1]
  · obtain ⟨k, rfl⟩ : ∃ k, f = k + 16 := ⟨f - 16, by omega⟩
    simp [decodeC1]

theorem decodeC2_none_iff (f : Nat) : decodeC2 f = none ↔ f = 0 ∨ 4 ≤ f := by
  by_cases h : f < 4
  · interval_cases f <;> simp [decodeC2]
  · obtain ⟨k, rfl⟩ : ∃ k, f = k + 4 := ⟨f - 4, by omega⟩
    simp [decodeC2]

/-- A word decodes to an instruction iff it is not zero and its fields select one. -/
theorem decodeWord_ok_iff (w : Word) (i : Instr) : decodeWord w = .ok i ↔ w ≠ 0 ∧ decodeFields w = some i := by
  unfold decodeWord
  by_cases h0 : w = 0
  · simp [h0]
  · rw [if_neg h0]
    cases decodeFields w with
    | none => simp
    | some j => exact ⟨fun h => ⟨h0, by cases h; rfl⟩, fun h => by cases h.2; rfl⟩

end Sys2Proof
end

