-- ==== Sys2Proof/Laws/State.lean ====
section
/-! SUPPORT. One lemma per field per update of State, and reading a register or a byte after each update. -/

namespace Sys2Proof.Machine

@[simp] theorem State.setReg_regs (s : State) (r : Reg) (v : Word) : (s.setReg r v).regs = s.regs.set r v := rfl
@[simp] theorem State.setReg_pc (s : State) (r : Reg) (v : Word) : (s.setReg r v).pc = s.pc := rfl
@[simp] theorem State.setReg_sp (s : State) (r : Reg) (v : Word) : (s.setReg r v).sp = s.sp := rfl
@[simp] theorem State.setReg_psr (s : State) (r : Reg) (v : Word) : (s.setReg r v).psr = s.psr := rfl
@[simp] theorem State.setReg_tr (s : State) (r : Reg) (v : Word) : (s.setReg r v).tr = s.tr := rfl
@[simp] theorem State.setReg_tlr (s : State) (r : Reg) (v : Word) : (s.setReg r v).tlr = s.tlr := rfl
@[simp] theorem State.setReg_thr (s : State) (r : Reg) (v : Word) : (s.setReg r v).thr = s.thr := rfl
@[simp] theorem State.setReg_ppc (s : State) (r : Reg) (v : Word) : (s.setReg r v).ppc = s.ppc := rfl
@[simp] theorem State.setReg_ppsr (s : State) (r : Reg) (v : Word) : (s.setReg r v).ppsr = s.ppsr := rfl
@[simp] theorem State.setReg_mem (s : State) (r : Reg) (v : Word) : (s.setReg r v).mem = s.mem := rfl
@[simp] theorem State.setReg_byteAt (s : State) (r : Reg) (v : Word) (c : Word) : (s.setReg r v).byteAt c = s.byteAt c := rfl

@[simp] theorem State.setPc_regs (s : State) (v : Word) : (s.setPc v).regs = s.regs := rfl
@[simp] theorem State.setPc_pc (s : State) (v : Word) : (s.setPc v).pc = v := rfl
@[simp] theorem State.setPc_sp (s : State) (v : Word) : (s.setPc v).sp = s.sp := rfl
@[simp] theorem State.setPc_psr (s : State) (v : Word) : (s.setPc v).psr = s.psr := rfl
@[simp] theorem State.setPc_tr (s : State) (v : Word) : (s.setPc v).tr = s.tr := rfl
@[simp] theorem State.setPc_tlr (s : State) (v : Word) : (s.setPc v).tlr = s.tlr := rfl
@[simp] theorem State.setPc_thr (s : State) (v : Word) : (s.setPc v).thr = s.thr := rfl
@[simp] theorem State.setPc_ppc (s : State) (v : Word) : (s.setPc v).ppc = s.ppc := rfl
@[simp] theorem State.setPc_ppsr (s : State) (v : Word) : (s.setPc v).ppsr = s.ppsr := rfl
@[simp] theorem State.setPc_mem (s : State) (v : Word) : (s.setPc v).mem = s.mem := rfl
@[simp] theorem State.setPc_getReg (s : State) (v : Word) (q : Reg) : (s.setPc v).getReg q = s.getReg q := rfl
@[simp] theorem State.setPc_byteAt (s : State) (v : Word) (c : Word) : (s.setPc v).byteAt c = s.byteAt c := rfl

@[simp] theorem State.setSp_regs (s : State) (v : Word) : (s.setSp v).regs = s.regs := rfl
@[simp] theorem State.setSp_pc (s : State) (v : Word) : (s.setSp v).pc = s.pc := rfl
@[simp] theorem State.setSp_sp (s : State) (v : Word) : (s.setSp v).sp = v := rfl
@[simp] theorem State.setSp_psr (s : State) (v : Word) : (s.setSp v).psr = s.psr := rfl
@[simp] theorem State.setSp_tr (s : State) (v : Word) : (s.setSp v).tr = s.tr := rfl
@[simp] theorem State.setSp_tlr (s : State) (v : Word) : (s.setSp v).tlr = s.tlr := rfl
@[simp] theorem State.setSp_thr (s : State) (v : Word) : (s.setSp v).thr = s.thr := rfl
@[simp] theorem State.setSp_ppc (s : State) (v : Word) : (s.setSp v).ppc = s.ppc := rfl
@[simp] theorem State.setSp_ppsr (s : State) (v : Word) : (s.setSp v).ppsr = s.ppsr := rfl
@[simp] theorem State.setSp_mem (s : State) (v : Word) : (s.setSp v).mem = s.mem := rfl
@[simp] theorem State.setSp_getReg (s : State) (v : Word) (q : Reg) : (s.setSp v).getReg q = s.getReg q := rfl
@[simp] theorem State.setSp_byteAt (s : State) (v : Word) (c : Word) : (s.setSp v).byteAt c = s.byteAt c := rfl

@[simp] theorem State.setPsr_regs (s : State) (v : Word) : (s.setPsr v).regs = s.regs := rfl
@[simp] theorem State.setPsr_pc (s : State) (v : Word) : (s.setPsr v).pc = s.pc := rfl
@[simp] theorem State.setPsr_sp (s : State) (v : Word) : (s.setPsr v).sp = s.sp := rfl
@[simp] theorem State.setPsr_psr (s : State) (v : Word) : (s.setPsr v).psr = v := rfl
@[simp] theorem State.setPsr_tr (s : State) (v : Word) : (s.setPsr v).tr = s.tr := rfl
@[simp] theorem State.setPsr_tlr (s : State) (v : Word) : (s.setPsr v).tlr = s.tlr := rfl
@[simp] theorem State.setPsr_thr (s : State) (v : Word) : (s.setPsr v).thr = s.thr := rfl
@[simp] theorem State.setPsr_ppc (s : State) (v : Word) : (s.setPsr v).ppc = s.ppc := rfl
@[simp] theorem State.setPsr_ppsr (s : State) (v : Word) : (s.setPsr v).ppsr = s.ppsr := rfl
@[simp] theorem State.setPsr_mem (s : State) (v : Word) : (s.setPsr v).mem = s.mem := rfl
@[simp] theorem State.setPsr_getReg (s : State) (v : Word) (q : Reg) : (s.setPsr v).getReg q = s.getReg q := rfl
@[simp] theorem State.setPsr_byteAt (s : State) (v : Word) (c : Word) : (s.setPsr v).byteAt c = s.byteAt c := rfl

@[simp] theorem State.setTr_regs (s : State) (v : DWord) : (s.setTr v).regs = s.regs := rfl
@[simp] theorem State.setTr_pc (s : State) (v : DWord) : (s.setTr v).pc = s.pc := rfl
@[simp] theorem State.setTr_sp (s : State) (v : DWord) : (s.setTr v).sp = s.sp := rfl
@[simp] theorem State.setTr_psr (s : State) (v : DWord) : (s.setTr v).psr = s.psr := rfl
@[simp] theorem State.setTr_tr (s : State) (v : DWord) : (s.setTr v).tr = v := rfl
@[simp] theorem State.setTr_tlr (s : State) (v : DWord) : (s.setTr v).tlr = s.tlr := rfl
@[simp] theorem State.setTr_thr (s : State) (v : DWord) : (s.setTr v).thr = s.thr := rfl
@[simp] theorem State.setTr_ppc (s : State) (v : DWord) : (s.setTr v).ppc = s.ppc := rfl
@[simp] theorem State.setTr_ppsr (s : State) (v : DWord) : (s.setTr v).ppsr = s.ppsr := rfl
@[simp] theorem State.setTr_mem (s : State) (v : DWord) : (s.setTr v).mem = s.mem := rfl
@[simp] theorem State.setTr_getReg (s : State) (v : DWord) (q : Reg) : (s.setTr v).getReg q = s.getReg q := rfl
@[simp] theorem State.setTr_byteAt (s : State) (v : DWord) (c : Word) : (s.setTr v).byteAt c = s.byteAt c := rfl

@[simp] theorem State.setTlr_regs (s : State) (v : Word) : (s.setTlr v).regs = s.regs := rfl
@[simp] theorem State.setTlr_pc (s : State) (v : Word) : (s.setTlr v).pc = s.pc := rfl
@[simp] theorem State.setTlr_sp (s : State) (v : Word) : (s.setTlr v).sp = s.sp := rfl
@[simp] theorem State.setTlr_psr (s : State) (v : Word) : (s.setTlr v).psr = s.psr := rfl
@[simp] theorem State.setTlr_tr (s : State) (v : Word) : (s.setTlr v).tr = s.tr := rfl
@[simp] theorem State.setTlr_tlr (s : State) (v : Word) : (s.setTlr v).tlr = v := rfl
@[simp] theorem State.setTlr_thr (s : State) (v : Word) : (s.setTlr v).thr = s.thr := rfl
@[simp] theorem State.setTlr_ppc (s : State) (v : Word) : (s.setTlr v).ppc = s.ppc := rfl
@[simp] theorem State.setTlr_ppsr (s : State) (v : Word) : (s.setTlr v).ppsr = s.ppsr := rfl
@[simp] theorem State.setTlr_mem (s : State) (v : Word) : (s.setTlr v).mem = s.mem := rfl
@[simp] theorem State.setTlr_getReg (s : State) (v : Word) (q : Reg) : (s.setTlr v).getReg q = s.getReg q := rfl
@[simp] theorem State.setTlr_byteAt (s : State) (v : Word) (c : Word) : (s.setTlr v).byteAt c = s.byteAt c := rfl

@[simp] theorem State.setThr_regs (s : State) (v : Word) : (s.setThr v).regs = s.regs := rfl
@[simp] theorem State.setThr_pc (s : State) (v : Word) : (s.setThr v).pc = s.pc := rfl
@[simp] theorem State.setThr_sp (s : State) (v : Word) : (s.setThr v).sp = s.sp := rfl
@[simp] theorem State.setThr_psr (s : State) (v : Word) : (s.setThr v).psr = s.psr := rfl
@[simp] theorem State.setThr_tr (s : State) (v : Word) : (s.setThr v).tr = s.tr := rfl
@[simp] theorem State.setThr_tlr (s : State) (v : Word) : (s.setThr v).tlr = s.tlr := rfl
@[simp] theorem State.setThr_thr (s : State) (v : Word) : (s.setThr v).thr = v := rfl
@[simp] theorem State.setThr_ppc (s : State) (v : Word) : (s.setThr v).ppc = s.ppc := rfl
@[simp] theorem State.setThr_ppsr (s : State) (v : Word) : (s.setThr v).ppsr = s.ppsr := rfl
@[simp] theorem State.setThr_mem (s : State) (v : Word) : (s.setThr v).mem = s.mem := rfl
@[simp] theorem State.setThr_getReg (s : State) (v : Word) (q : Reg) : (s.setThr v).getReg q = s.getReg q := rfl
@[simp] theorem State.setThr_byteAt (s : State) (v : Word) (c : Word) : (s.setThr v).byteAt c = s.byteAt c := rfl

@[simp] theorem State.setPpc_regs (s : State) (v : Word) : (s.setPpc v).regs = s.regs := rfl
@[simp] theorem State.setPpc_pc (s : State) (v : Word) : (s.setPpc v).pc = s.pc := rfl
@[simp] theorem State.setPpc_sp (s : State) (v : Word) : (s.setPpc v).sp = s.sp := rfl
@[simp] theorem State.setPpc_psr (s : State) (v : Word) : (s.setPpc v).psr = s.psr := rfl
@[simp] theorem State.setPpc_tr (s : State) (v : Word) : (s.setPpc v).tr = s.tr := rfl
@[simp] theorem State.setPpc_tlr (s : State) (v : Word) : (s.setPpc v).tlr = s.tlr := rfl
@[simp] theorem State.setPpc_thr (s : State) (v : Word) : (s.setPpc v).thr = s.thr := rfl
@[simp] theorem State.setPpc_ppc (s : State) (v : Word) : (s.setPpc v).ppc = v := rfl
@[simp] theorem State.setPpc_ppsr (s : State) (v : Word) : (s.setPpc v).ppsr = s.ppsr := rfl
@[simp] theorem State.setPpc_mem (s : State) (v : Word) : (s.setPpc v).mem = s.mem := rfl
@[simp] theorem State.setPpc_getReg (s : State) (v : Word) (q : Reg) : (s.setPpc v).getReg q = s.getReg q := rfl
@[simp] theorem State.setPpc_byteAt (s : State) (v : Word) (c : Word) : (s.setPpc v).byteAt c = s.byteAt c := rfl

@[simp] theorem State.setPpsr_regs (s : State) (v : Word) : (s.setPpsr v).regs = s.regs := rfl
@[simp] theorem State.setPpsr_pc (s : State) (v : Word) : (s.setPpsr v).pc = s.pc := rfl
@[simp] theorem State.setPpsr_sp (s : State) (v : Word) : (s.setPpsr v).sp = s.sp := rfl
@[simp] theorem State.setPpsr_psr (s : State) (v : Word) : (s.setPpsr v).psr = s.psr := rfl
@[simp] theorem State.setPpsr_tr (s : State) (v : Word) : (s.setPpsr v).tr = s.tr := rfl
@[simp] theorem State.setPpsr_tlr (s : State) (v : Word) : (s.setPpsr v).tlr = s.tlr := rfl
@[simp] theorem State.setPpsr_thr (s : State) (v : Word) : (s.setPpsr v).thr = s.thr := rfl
@[simp] theorem State.setPpsr_ppc (s : State) (v : Word) : (s.setPpsr v).ppc = s.ppc := rfl
@[simp] theorem State.setPpsr_ppsr (s : State) (v : Word) : (s.setPpsr v).ppsr = v := rfl
@[simp] theorem State.setPpsr_mem (s : State) (v : Word) : (s.setPpsr v).mem = s.mem := rfl
@[simp] theorem State.setPpsr_getReg (s : State) (v : Word) (q : Reg) : (s.setPpsr v).getReg q = s.getReg q := rfl
@[simp] theorem State.setPpsr_byteAt (s : State) (v : Word) (c : Word) : (s.setPpsr v).byteAt c = s.byteAt c := rfl

@[simp] theorem State.setMem_regs (s : State) (m : Memory) : (s.setMem m).regs = s.regs := rfl
@[simp] theorem State.setMem_pc (s : State) (m : Memory) : (s.setMem m).pc = s.pc := rfl
@[simp] theorem State.setMem_sp (s : State) (m : Memory) : (s.setMem m).sp = s.sp := rfl
@[simp] theorem State.setMem_psr (s : State) (m : Memory) : (s.setMem m).psr = s.psr := rfl
@[simp] theorem State.setMem_tr (s : State) (m : Memory) : (s.setMem m).tr = s.tr := rfl
@[simp] theorem State.setMem_tlr (s : State) (m : Memory) : (s.setMem m).tlr = s.tlr := rfl
@[simp] theorem State.setMem_thr (s : State) (m : Memory) : (s.setMem m).thr = s.thr := rfl
@[simp] theorem State.setMem_ppc (s : State) (m : Memory) : (s.setMem m).ppc = s.ppc := rfl
@[simp] theorem State.setMem_ppsr (s : State) (m : Memory) : (s.setMem m).ppsr = s.ppsr := rfl
@[simp] theorem State.setMem_mem (s : State) (m : Memory) : (s.setMem m).mem = m := rfl
@[simp] theorem State.setMem_getReg (s : State) (m : Memory) (q : Reg) : (s.setMem m).getReg q = s.getReg q := rfl

@[simp] theorem State.setByte_regs (s : State) (a : Word) (v : Byte) : (s.setByte a v).regs = s.regs := rfl
@[simp] theorem State.setByte_pc (s : State) (a : Word) (v : Byte) : (s.setByte a v).pc = s.pc := rfl
@[simp] theorem State.setByte_sp (s : State) (a : Word) (v : Byte) : (s.setByte a v).sp = s.sp := rfl
@[simp] theorem State.setByte_psr (s : State) (a : Word) (v : Byte) : (s.setByte a v).psr = s.psr := rfl
@[simp] theorem State.setByte_tr (s : State) (a : Word) (v : Byte) : (s.setByte a v).tr = s.tr := rfl
@[simp] theorem State.setByte_tlr (s : State) (a : Word) (v : Byte) : (s.setByte a v).tlr = s.tlr := rfl
@[simp] theorem State.setByte_thr (s : State) (a : Word) (v : Byte) : (s.setByte a v).thr = s.thr := rfl
@[simp] theorem State.setByte_ppc (s : State) (a : Word) (v : Byte) : (s.setByte a v).ppc = s.ppc := rfl
@[simp] theorem State.setByte_ppsr (s : State) (a : Word) (v : Byte) : (s.setByte a v).ppsr = s.ppsr := rfl
@[simp] theorem State.setByte_mem (s : State) (a : Word) (v : Byte) : (s.setByte a v).mem = s.mem.write a.toNat v := rfl
@[simp] theorem State.setByte_getReg (s : State) (a : Word) (v : Byte) (q : Reg) : (s.setByte a v).getReg q = s.getReg q := rfl

/-! Reading a register after a write (R11). -/

@[simp] theorem Regs.get_x0 (g : Regs) : g.get .x0 = 0 := rfl

@[simp] theorem Regs.set_x0 (g : Regs) (v : Word) : g.set .x0 v = g := rfl

theorem Regs.get_set_self (g : Regs) (r : Reg) (v : Word) (h : r ≠ .x0) : (g.set r v).get r = v := by
  cases r <;> first | rfl | exact absurd rfl h

theorem Regs.get_set_ne (g : Regs) (r q : Reg) (v : Word) (h : q ≠ r) : (g.set r v).get q = g.get q := by
  cases r <;> cases q <;> first | rfl | exact absurd rfl h

theorem Regs.get_set (g : Regs) (r q : Reg) (v : Word) :
    (g.set r v).get q = if q = r ∧ r ≠ .x0 then v else g.get q := by
  by_cases hq : q = r
  · subst hq
    by_cases h0 : q = .x0
    · subst h0; simp
    · simp [h0, Regs.get_set_self]
  · simp [hq, Regs.get_set_ne]

@[simp] theorem State.getReg_x0 (s : State) : s.getReg .x0 = 0 := rfl

@[simp] theorem State.setReg_x0 (s : State) (v : Word) : s.setReg .x0 v = s := rfl

/-- What a register holds after a write of any register: the one lemma about `setReg` later proofs need. -/
theorem State.getReg_setReg (s : State) (r q : Reg) (v : Word) :
    (s.setReg r v).getReg q = if q = r ∧ r ≠ .x0 then v else s.getReg q := Regs.get_set s.regs r q v

theorem State.getReg_setReg_self (s : State) (r : Reg) (v : Word) (h : r ≠ .x0) : (s.setReg r v).getReg r = v :=
  Regs.get_set_self s.regs r v h

theorem State.getReg_setReg_ne (s : State) (r q : Reg) (v : Word) (h : q ≠ r) :
    (s.setReg r v).getReg q = s.getReg q := Regs.get_set_ne s.regs r q v h

end Sys2Proof.Machine
end

