-- ==== Sys2Proof/Laws/Memory.lean ====
section
/-! SUPPORT. Memory: reading after a write, and that every memory operation keeps the canonical form (R32, R33, R42). -/

namespace Sys2Proof.Machine

/-! ## Reading after a write -/

@[simp] theorem Memory.read_nil (a : Nat) : Memory.read [] a = Memory.unlisted := rfl

theorem Memory.read_cell (k c : Nat) (b : Byte) (m : Memory) :
    Memory.read ((k, b) :: m) c = if k = c then b else Memory.read m c := rfl

/-- An address no cell is listed at reads as the padding. -/
theorem Memory.read_absent {a : Nat} : ∀ {m : Memory}, (∀ cell ∈ m, cell.1 ≠ a) → Memory.read m a = Memory.unlisted
  | [], _ => rfl
  | (k, b) :: m, h => by
    have hk : k ≠ a := h (k, b) (by simp)
    rw [Memory.read_cell, if_neg hk]
    exact Memory.read_absent fun cell hc => h cell (by simp [hc])

theorem Memory.read_cons (a c : Nat) (v : Byte) (m : Memory) (h : Memory.read m a = Memory.unlisted) :
    Memory.read (Memory.cons a v m) c = if c = a then v else Memory.read m c := by
  unfold Memory.cons
  by_cases hv : v = Memory.unlisted
  · by_cases hc : c = a
    · simp [hv, hc, h]
    · simp [hv, hc]
  · by_cases hc : c = a
    · simp [hv, hc, Memory.read]
    · simp [hv, hc, Memory.read, Ne.symm hc]

theorem Memory.drop_absent (a : Nat) : ∀ m : Memory, ∀ cell ∈ Memory.drop m a, cell.1 ≠ a
  | [], cell, h => by simp [Memory.drop] at h
  | (k, b) :: m, cell, h => by
    unfold Memory.drop at h
    split at h
    · exact Memory.drop_absent a m cell h
    · rcases List.mem_cons.1 h with rfl | h
      · assumption
      · exact Memory.drop_absent a m cell h

theorem Memory.read_drop_ne (a c : Nat) (hc : c ≠ a) :
    ∀ m : Memory, Memory.read (Memory.drop m a) c = Memory.read m c
  | [] => rfl
  | (k, b) :: m => by
    unfold Memory.drop
    split
    · rw [Memory.read_drop_ne a c hc m, Memory.read_cell, if_neg (by omega)]
    · rw [Memory.read_cell, Memory.read_cell, Memory.read_drop_ne a c hc m]

theorem Memory.read_insert (a c : Nat) (v : Byte) :
    ∀ m : Memory, (∀ cell ∈ m, cell.1 ≠ a) →
      Memory.read (Memory.insert m a v) c = if c = a then v else Memory.read m c
  | [], _ => Memory.read_cons a c v [] rfl
  | (k, b) :: m, h => by
    have hk : k ≠ a := h (k, b) (by simp)
    unfold Memory.insert
    split
    · exact Memory.read_cons a c v _ (Memory.read_absent h)
    · rw [Memory.read_cell, Memory.read_cell, Memory.read_insert a c v m fun cell hc => h cell (by simp [hc])]
      split_ifs <;> first | rfl | omega

/-- A read after a write gives the byte written at its address and leaves every other address alone. -/
theorem Memory.read_write (m : Memory) (a c : Nat) (v : Byte) :
    Memory.read (Memory.write m a v) c = if c = a then v else Memory.read m c := by
  rw [Memory.write, Memory.read_insert a c v _ (Memory.drop_absent a m)]
  split_ifs with hc
  · rfl
  · exact Memory.read_drop_ne a c hc m

/-! ## The canonical form -/

theorem Memory.wfFrom_cons_iff (lo k : Nat) (b : Byte) (m : Memory) :
    Memory.wfFrom lo ((k, b) :: m) = true ↔
      lo ≤ k ∧ k < 65536 ∧ b ≠ Memory.unlisted ∧ Memory.wfFrom (k + 1) m = true := by
  simp [Memory.wfFrom, and_assoc]

/-- The canonical form above a bound holds above every smaller one. -/
theorem Memory.wfFrom_mono {lo lo' : Nat} (h : lo' ≤ lo) :
    ∀ {m : Memory}, Memory.wfFrom lo m = true → Memory.wfFrom lo' m = true
  | [], _ => rfl
  | (k, b) :: m, hm => by
    obtain ⟨h1, h2⟩ := (Memory.wfFrom_cons_iff _ _ _ _).1 hm
    exact (Memory.wfFrom_cons_iff _ _ _ _).2 ⟨h.trans h1, h2⟩

theorem Memory.wfFrom_cons {lo a : Nat} {v : Byte} {m : Memory} (hlo : lo ≤ a) (ha : a < 65536)
    (h : Memory.wfFrom (a + 1) m = true) : Memory.wfFrom lo (Memory.cons a v m) = true := by
  unfold Memory.cons
  split
  · exact Memory.wfFrom_mono (by omega) h
  · exact (Memory.wfFrom_cons_iff _ _ _ _).2 ⟨hlo, ha, ‹_›, h⟩

theorem Memory.wfFrom_drop (a : Nat) :
    ∀ {lo : Nat} {m : Memory}, Memory.wfFrom lo m = true → Memory.wfFrom lo (Memory.drop m a) = true
  | _, [], _ => rfl
  | lo, (k, b) :: m, hm => by
    obtain ⟨h1, h2, h3, h4⟩ := (Memory.wfFrom_cons_iff _ _ _ _).1 hm
    unfold Memory.drop
    split
    · exact Memory.wfFrom_mono (by omega) (Memory.wfFrom_drop a h4)
    · exact (Memory.wfFrom_cons_iff _ _ _ _).2 ⟨h1, h2, h3, Memory.wfFrom_drop a h4⟩

theorem Memory.wfFrom_insert {a : Nat} {v : Byte} (ha : a < 65536) :
    ∀ {lo : Nat} {m : Memory}, lo ≤ a → (∀ cell ∈ m, cell.1 ≠ a) → Memory.wfFrom lo m = true →
      Memory.wfFrom lo (Memory.insert m a v) = true
  | lo, [], hlo, _, _ => Memory.wfFrom_cons hlo ha rfl
  | lo, (k, b) :: m, hlo, h, hm => by
    obtain ⟨h1, h2, h3, h4⟩ := (Memory.wfFrom_cons_iff _ _ _ _).1 hm
    have hk : k ≠ a := h (k, b) (by simp)
    unfold Memory.insert
    split
    · exact Memory.wfFrom_cons hlo ha ((Memory.wfFrom_cons_iff _ _ _ _).2 ⟨by omega, h2, h3, h4⟩)
    · exact (Memory.wfFrom_cons_iff _ _ _ _).2
        ⟨h1, h2, h3, Memory.wfFrom_insert ha (by omega) (fun cell hc => h cell (by simp [hc])) h4⟩

/-- Writing a byte of the 16-bit space keeps the canonical form. -/
theorem Memory.wf_write {m : Memory} {a : Nat} (v : Byte) (ha : a < 65536) (h : Memory.wf m = true) :
    Memory.wf (Memory.write m a v) = true :=
  Memory.wfFrom_insert ha (Nat.zero_le a) (Memory.drop_absent a m) (Memory.wfFrom_drop a h)

@[simp] theorem Memory.wf_nil : Memory.wf [] = true := rfl

/-- The canonical form above `lo` of one memory before another. -/
theorem Memory.wfFrom_append {hi : Nat} {n : Memory} (hn : Memory.wfFrom hi n = true) :
    ∀ {lo : Nat} {m : Memory}, lo ≤ hi → (∀ cell ∈ m, cell.1 < hi) → Memory.wfFrom lo m = true →
      Memory.wfFrom lo (m ++ n) = true
  | _, [], hlo, _, _ => Memory.wfFrom_mono hlo hn
  | lo, (k, b) :: m, _, h, hm => by
    obtain ⟨h1, h2, h3, h4⟩ := (Memory.wfFrom_cons_iff _ _ _ _).1 hm
    exact (Memory.wfFrom_cons_iff _ _ _ _).2 ⟨h1, h2, h3,
      Memory.wfFrom_append hn (h (k, b) (by simp)) (fun cell hc => h cell (by simp [hc])) h4⟩

/-! ## Images (R33) -/

/-- The cells of an image lie where it was laid out. -/
theorem Memory.mem_ofImage : ∀ (a : Nat) (bytes : List Byte), ∀ cell ∈ Memory.ofImage a bytes,
    a ≤ cell.1 ∧ cell.1 < a + bytes.length
  | _, [], cell, h => by simp [Memory.ofImage] at h
  | a, b :: bytes, cell, h => by
    have ih := Memory.mem_ofImage (a + 1) bytes cell
    simp only [Memory.ofImage, Memory.cons] at h
    simp only [List.length_cons]
    split at h
    · have := ih h; omega
    · rcases List.mem_cons.1 h with rfl | h
      · simp
      · have := ih h; omega

theorem Memory.wfFrom_ofImage : ∀ (a : Nat) (bytes : List Byte), a + bytes.length ≤ 65536 →
    Memory.wfFrom a (Memory.ofImage a bytes) = true
  | _, [], _ => rfl
  | a, b :: bytes, h => by
    simp only [List.length_cons] at h
    exact Memory.wfFrom_cons (Nat.le_refl a) (by omega) (Memory.wfFrom_ofImage (a + 1) bytes (by omega))

/-- An image's byte at its offset, the padding elsewhere. -/
theorem Memory.read_ofImage (c : Nat) : ∀ (a : Nat) (bytes : List Byte),
    Memory.read (Memory.ofImage a bytes) c = if a ≤ c then bytes.getD (c - a) Memory.unlisted else Memory.unlisted
  | a, [] => by simp [Memory.ofImage]
  | a, b :: bytes => by
    have habs : Memory.read (Memory.ofImage (a + 1) bytes) a = Memory.unlisted :=
      Memory.read_absent fun cell h => by have := Memory.mem_ofImage (a + 1) bytes cell h; omega
    rw [Memory.ofImage, Memory.read_cons a c b _ habs, Memory.read_ofImage c (a + 1) bytes]
    rcases Nat.lt_trichotomy c a with h | rfl | h
    · rw [if_neg (by omega), if_neg (by omega), if_neg (by omega)]
    · simp
    · obtain ⟨k, rfl⟩ : ∃ k, c = a + 1 + k := ⟨c - (a + 1), by omega⟩
      have hk : a + 1 + k - a = k + 1 := by omega
      rw [if_neg (by omega), if_pos (by omega), if_pos (by omega), hk]
      simp

/-- Reading where the first of two memories lists nothing. -/
theorem Memory.read_append (n : Memory) (c : Nat) : ∀ m : Memory,
    Memory.read (m ++ n) c = if c ∈ m.map Prod.fst then Memory.read m c else Memory.read n c
  | [] => by simp
  | (k, b) :: m => by
    rw [List.cons_append, Memory.read_cell, Memory.read_cell, Memory.read_append n c m]
    by_cases hk : k = c
    · simp [hk]
    · simp [hk, Ne.symm hk]

end Sys2Proof.Machine
end

