-- ==== Sys2Proof/Laws/Ops.lean ====
section
/-! SUPPORT. One lemma per shared operation: the address check, the four memory primitives, going on or stopping, fetch,
trap entry and return. Later proofs cite these instead of unfolding the operations. -/

namespace Sys2Proof.Machine

/-! ## The address check (R31, R36) -/

theorem regionOffset_eq (a : Word) : regionOffset a = a.toNat % 32768 := by
  have h := a.isLt
  have hb : a.getLsbD 15 = decide (32768 ≤ a.toNat) := by
    rw [BitVec.getLsbD, Nat.testBit_eq_decide_div_mod_eq]
    have : a.toNat / 2 ^ 15 < 2 := by omega
    exact decide_eq_decide.2 ⟨by omega, by omega⟩
  unfold regionOffset regionOf
  rw [hb]
  by_cases h' : 32768 ≤ a.toNat
  · simp [h', Region.base]; omega
  · simp [h', Region.base]; omega

/-- The address check refuses two addresses and no other. -/
theorem accessOk_iff (a : Word) : AccessOk a ↔ a ≠ 0x7FFF ∧ a ≠ 0xFFFF := by
  have h := a.isLt
  rw [AccessOk, regionOffset_eq, Ne, Ne, ← BitVec.toNat_inj, ← BitVec.toNat_inj]
  simp [Config.regionSize]
  omega

/-- The second byte of a valid window does not wrap. -/
theorem accessOk_succ {a : Word} (h : AccessOk a) : (a + 1).toNat = a.toNat + 1 := by
  rw [accessOk_iff, Ne, Ne, ← BitVec.toNat_inj, ← BitVec.toNat_inj] at h
  have ha := a.isLt
  have hne : a.toNat ≠ 65535 := by simpa using h.2
  rw [BitVec.toNat_add]
  simp
  omega

theorem succ_ne_self (a : Word) : a + 1 ≠ a := by
  intro h
  have := congrArg BitVec.toNat h
  have ha := a.isLt
  rw [BitVec.toNat_add] at this
  simp at this
  omega

/-! ## Bytes -/

/-- A byte of memory after a byte is written. -/
theorem State.byteAt_setByte (s : State) (a c : Word) (v : Byte) :
    (s.setByte a v).byteAt c = if c = a then v else s.byteAt c := by
  simp [State.byteAt, Memory.read_write, BitVec.toNat_inj]

/-! ## The memory primitives (R36 to R39): what each answers at a valid address, and at the two others -/

theorem memReadByte_ok (s : State) {a : Word} (h : AccessOk a) : memReadByte s a = .ok (s.byteAt a) := if_pos h

theorem memReadWord_ok (s : State) {a : Word} (h : AccessOk a) :
    memReadWord s a = .ok (wordOfBytes (s.byteAt a) (s.byteAt (a + 1))) := if_pos h

theorem memWriteByte_ok (s : State) {a : Word} (v : Byte) (h : AccessOk a) :
    memWriteByte s a v = .ok (s.setByte a v) := if_pos h

theorem memWriteWord_ok (s : State) {a : Word} (v : Word) (h : AccessOk a) :
    memWriteWord s a v = .ok ((s.setByte a (lowByte v)).setByte (a + 1) (highByte v)) := if_pos h

theorem memReadByte_stop (s : State) {a : Word} (h : ¬ AccessOk a) : memReadByte s a = .error (.invalidAddress a s) :=
  if_neg h

theorem memReadWord_stop (s : State) {a : Word} (h : ¬ AccessOk a) : memReadWord s a = .error (.invalidAddress a s) :=
  if_neg h

theorem memWriteByte_stop (s : State) {a : Word} (v : Byte) (h : ¬ AccessOk a) :
    memWriteByte s a v = .error (.invalidAddress a s) := if_neg h

theorem memWriteWord_stop (s : State) {a : Word} (v : Word) (h : ¬ AccessOk a) :
    memWriteWord s a v = .error (.invalidAddress a s) := if_neg h

/-- Setting a byte keeps memory canonical. -/
theorem MemoryCanonical.setByte {s : State} (a : Word) (v : Byte) (h : MemoryCanonical s) :
    MemoryCanonical (s.setByte a v) := Memory.wf_write v a.isLt h

/-- What a completed word write leaves: memory changed, canonical where it was. -/
theorem memWriteWord_canonical {s t : State} {a v : Word} (hs : MemoryCanonical s) (h : memWriteWord s a v = .ok t) :
    MemoryCanonical t := by
  by_cases ha : AccessOk a
  · rw [memWriteWord_ok s v ha] at h
    cases h
    exact (hs.setByte _ _).setByte _ _
  · rw [memWriteWord_stop s v ha] at h
    cases h

/-- What a completed byte write leaves: memory changed, canonical where it was. -/
theorem memWriteByte_canonical {s t : State} {a : Word} {v : Byte} (hs : MemoryCanonical s)
    (h : memWriteByte s a v = .ok t) : MemoryCanonical t := by
  by_cases ha : AccessOk a
  · rw [memWriteByte_ok s v ha] at h
    cases h
    exact hs.setByte _ _
  · rw [memWriteByte_stop s v ha] at h
    cases h

/-! ## Going on or stopping -/

@[simp] theorem orStop_ok {α : Type} (v : α) (go : α → Result) : orStop (.ok v) go = go v := rfl

@[simp] theorem orStop_error {α : Type} (f : Fault) (go : α → Result) :
    orStop (.error f : Except Fault α) go = .fault f := rfl

/-- What follows an access reached a next state only through a completed access. -/
theorem orStop_next {α : Type} {x : Except Fault α} {go : α → Result} {t : State} (h : orStop x go = .next t) :
    ∃ v, x = .ok v ∧ go v = .next t := by
  cases x with
  | ok v => exact ⟨v, rfl, h⟩
  | error f => cases h

/-- What follows an access stopped at the access or after it. -/
theorem orStop_fault {α : Type} {x : Except Fault α} {go : α → Result} {f : Fault} (h : orStop x go = .fault f) :
    x = .error f ∨ ∃ v, x = .ok v ∧ go v = .fault f := by
  cases x with
  | ok v => exact .inr ⟨v, rfl, h⟩
  | error g => cases h; exact .inl rfl

/-! ## Fetch (R143 points 1 to 4): the four cases, in order -/

theorem fetch_invalid (s : State) (h : ¬ AccessOk s.pc) : fetch s = .error (.invalidAddress s.pc s) := by
  simp [fetch, memReadWord_stop s h]

theorem fetch_zero (s : State) (h : AccessOk s.pc) (hw : wordOfBytes (s.byteAt s.pc) (s.byteAt (s.pc + 1)) = 0) :
    fetch s = .error (.debugInterrupt s) := by
  simp only [fetch, memReadWord_ok s h, hw, if_true]

theorem decodeWord_zero_iff (w : Word) : decodeWord w = .error .debugSentinel ↔ w = 0 := by
  unfold decodeWord
  by_cases h : w = 0
  · simp [h]
  · simp only [h, if_false, iff_false]
    cases decodeFields w <;> simp

theorem fetch_instr (s : State) (i : Instr) (h : AccessOk s.pc)
    (hw : decodeWord (wordOfBytes (s.byteAt s.pc) (s.byteAt (s.pc + 1))) = .ok i) :
    fetch s = .ok (i, s.setPc (s.pc + 2)) := by
  have h0 : wordOfBytes (s.byteAt s.pc) (s.byteAt (s.pc + 1)) ≠ 0 := by
    intro h0; rw [h0] at hw; cases hw
  simp only [fetch, memReadWord_ok s h, if_neg h0, hw]

theorem fetch_unknown (s : State) (w : Word) (h : AccessOk s.pc)
    (hw : decodeWord (wordOfBytes (s.byteAt s.pc) (s.byteAt (s.pc + 1))) = .error (.unknown w)) :
    fetch s = .error (.unknownInstruction (wordOfBytes (s.byteAt s.pc) (s.byteAt (s.pc + 1))) (s.setPc (s.pc + 2))) := by
  have h0 : wordOfBytes (s.byteAt s.pc) (s.byteAt (s.pc + 1)) ≠ 0 := by
    intro h0; rw [h0] at hw; cases hw
  simp only [fetch, memReadWord_ok s h, if_neg h0, hw]

/-- The decoder rejects a word as unknown with the word itself, or as the sentinel. -/
theorem decodeWord_error {w : Word} {e : Reject} (h : decodeWord w = .error e) :
    (w = 0 ∧ e = .debugSentinel) ∨ (w ≠ 0 ∧ e = .unknown w) := by
  unfold decodeWord at h
  by_cases h0 : w = 0
  · rw [if_pos h0] at h; cases h; exact .inl ⟨h0, rfl⟩
  · rw [if_neg h0] at h
    cases hd : decodeFields w with
    | some i => rw [hd] at h; cases h
    | none => rw [hd] at h; cases h; exact .inr ⟨h0, rfl⟩

/-! ## The trap (R155, R157) -/

@[simp] theorem enterTrap_eq (s : State) :
    enterTrap s = { s with ppc := s.pc, ppsr := s.psr, psr := 0x0002, pc := 0x0000 } := rfl

@[simp] theorem returnFromTrap_eq (s : State) : returnFromTrap s = { s with pc := s.ppc, psr := s.ppsr } := rfl

end Sys2Proof.Machine
end

