-- ==== Sys2Proof/Laws/Frame.lean ====
section
/-! SUPPORT. Frames: what each update of the state leaves as it was, and how frames compose. -/

namespace Sys2Proof.Machine

theorem SameBut.refl (ps : List Part) (s : State) : SameBut ps s s := fun _ _ => rfl

theorem SameBut.mono {ps qs : List Part} {s t : State} (h : SameBut ps s t) (hsub : ∀ p ∈ ps, p ∈ qs) : SameBut qs s t :=
  fun p hp => h p fun hp' => hp (hsub p hp')

theorem SameBut.trans {ps : List Part} {s t u : State} (h : SameBut ps s t) (h' : SameBut ps t u) : SameBut ps s u :=
  fun p hp => (h' p hp).trans (h p hp)

theorem SameBut.getReg {ps : List Part} {s t : State} (h : SameBut ps s t) {r : Reg} (hr : Part.reg r ∉ ps) :
    t.getReg r = s.getReg r := BitVec.eq_of_toNat_eq (h _ hr)

theorem SameBut.byteAt {ps : List Part} {s t : State} (h : SameBut ps s t) {a : Word} (ha : Part.byte a ∉ ps) :
    t.byteAt a = s.byteAt a := BitVec.eq_of_toNat_eq (h _ ha)

theorem sameBut_setReg (s : State) (r : Reg) (v : Word) : SameBut [.reg r] s (s.setReg r v) := by
  intro p hp
  cases p with
  | reg q =>
    have hq : q ≠ r := fun h => hp (by simp [h])
    simp [State.part, State.getReg_setReg_ne _ _ _ _ hq]
  | _ => rfl

theorem sameBut_setPc (s : State) (v : Word) : SameBut [.pc] s (s.setPc v) := by
  intro p hp
  cases p <;> first | rfl | exact absurd (List.mem_singleton.2 rfl) hp

theorem sameBut_setSp (s : State) (v : Word) : SameBut [.sp] s (s.setSp v) := by
  intro p hp
  cases p <;> first | rfl | exact absurd (List.mem_singleton.2 rfl) hp

theorem sameBut_setPsr (s : State) (v : Word) : SameBut [.psr] s (s.setPsr v) := by
  intro p hp
  cases p <;> first | rfl | exact absurd (List.mem_singleton.2 rfl) hp

theorem sameBut_setTr (s : State) (v : DWord) : SameBut [.tr] s (s.setTr v) := by
  intro p hp
  cases p <;> first | rfl | exact absurd (List.mem_singleton.2 rfl) hp

theorem sameBut_setTlr (s : State) (v : Word) : SameBut [.tlr] s (s.setTlr v) := by
  intro p hp
  cases p <;> first | rfl | exact absurd (List.mem_singleton.2 rfl) hp

theorem sameBut_setThr (s : State) (v : Word) : SameBut [.thr] s (s.setThr v) := by
  intro p hp
  cases p <;> first | rfl | exact absurd (List.mem_singleton.2 rfl) hp

theorem sameBut_setPpc (s : State) (v : Word) : SameBut [.ppc] s (s.setPpc v) := by
  intro p hp
  cases p <;> first | rfl | exact absurd (List.mem_singleton.2 rfl) hp

theorem sameBut_setPpsr (s : State) (v : Word) : SameBut [.ppsr] s (s.setPpsr v) := by
  intro p hp
  cases p <;> first | rfl | exact absurd (List.mem_singleton.2 rfl) hp

theorem sameBut_setByte (s : State) (a : Word) (v : Byte) : SameBut [.byte a] s (s.setByte a v) := by
  intro p hp
  cases p with
  | byte c =>
    have hc : c ≠ a := fun h => hp (by simp [h])
    simp [State.part, State.byteAt_setByte, hc]
  | _ => rfl

end Sys2Proof.Machine
end

