-- ==== Sys2Proof/Laws/Exec.lean ====
section
/-! SUPPORT. What the instructions that access memory answer, at a valid address and at an invalid one; what a fetch can
answer; what a completed step is. Later proofs cite these and unfold no meaning. -/

namespace Sys2Proof.Machine

/-- Any address but the two of R36 can be accessed. -/
theorem accessOk_of_ne {a : Word} (h1 : a ≠ 0x7FFF) (h2 : a ≠ 0xFFFF) : AccessOk a := (accessOk_iff a).2 ⟨h1, h2⟩

/-- An address that cannot be accessed is one of the two of R36. -/
theorem not_accessOk_iff (a : Word) : ¬ AccessOk a ↔ a = 0x7FFF ∨ a = 0xFFFF := by
  rw [accessOk_iff, ← not_or, not_not]

/-- Writing a register is `WritesReg`, for `x0` too. -/
theorem writesReg_setReg (rd : Reg) (v : Word) (s : State) : WritesReg rd v s (s.setReg rd v) := by
  refine ⟨?_, sameBut_setReg s rd v⟩
  rw [State.getReg_setReg]
  by_cases h : rd = .x0 <;> simp [h]

/-! ## Loads and stores -/

section
variable (s : State) (rd rs : Reg) (imm : Imm5)

theorem exec_lh_ok (h : AccessOk (effAddr s rs imm)) :
    exec (.lh rd rs imm) s = .next (s.setReg rd (sext8 (s.byteAt (effAddr s rs imm)))) := by
  simp only [exec, execLh, loadByte, memReadByte_ok s h, orStop_ok]

theorem exec_lhu_ok (h : AccessOk (effAddr s rs imm)) :
    exec (.lhu rd rs imm) s = .next (s.setReg rd (zext8 (s.byteAt (effAddr s rs imm)))) := by
  simp only [exec, execLhu, loadByte, memReadByte_ok s h, orStop_ok]

theorem exec_lw_ok (h : AccessOk (effAddr s rs imm)) :
    exec (.lw rd rs imm) s =
      .next (s.setReg rd (wordOfBytes (s.byteAt (effAddr s rs imm)) (s.byteAt (effAddr s rs imm + 1)))) := by
  simp only [exec, execLw, memReadWord_ok s h, orStop_ok]

theorem exec_sh_ok (h : AccessOk (effAddr s rs imm)) :
    exec (.sh rd rs imm) s = .next (s.setByte (effAddr s rs imm) (lowByte (s.getReg rd))) := by
  simp only [exec, execSh, memWriteByte_ok s _ h, orStop_ok]

theorem exec_sw_ok (h : AccessOk (effAddr s rs imm)) :
    exec (.sw rd rs imm) s =
      .next ((s.setByte (effAddr s rs imm) (lowByte (s.getReg rd))).setByte (effAddr s rs imm + 1)
        (highByte (s.getReg rd))) := by
  simp only [exec, execSw, memWriteWord_ok s _ h, orStop_ok]

theorem exec_lh_stop (h : ¬ AccessOk (effAddr s rs imm)) :
    exec (.lh rd rs imm) s = .fault (.invalidAddress (effAddr s rs imm) s) := by
  simp only [exec, execLh, loadByte, memReadByte_stop s h, orStop_error]

theorem exec_lhu_stop (h : ¬ AccessOk (effAddr s rs imm)) :
    exec (.lhu rd rs imm) s = .fault (.invalidAddress (effAddr s rs imm) s) := by
  simp only [exec, execLhu, loadByte, memReadByte_stop s h, orStop_error]

theorem exec_lw_stop (h : ¬ AccessOk (effAddr s rs imm)) :
    exec (.lw rd rs imm) s = .fault (.invalidAddress (effAddr s rs imm) s) := by
  simp only [exec, execLw, memReadWord_stop s h, orStop_error]

theorem exec_sh_stop (h : ¬ AccessOk (effAddr s rs imm)) :
    exec (.sh rd rs imm) s = .fault (.invalidAddress (effAddr s rs imm) s) := by
  simp only [exec, execSh, memWriteByte_stop s _ h, orStop_error]

theorem exec_sw_stop (h : ¬ AccessOk (effAddr s rs imm)) :
    exec (.sw rd rs imm) s = .fault (.invalidAddress (effAddr s rs imm) s) := by
  simp only [exec, execSw, memWriteWord_stop s _ h, orStop_error]

/-! ## push and pop -/

theorem exec_push_ok (h : AccessOk (s.sp - 2)) :
    exec (.push rd) s =
      .next (((s.setSp (s.sp - 2)).setByte (s.sp - 2) (lowByte (s.getReg rd))).setByte (s.sp - 2 + 1)
        (highByte (s.getReg rd))) := by
  simp only [exec, execPush, State.setSp_sp, State.setSp_getReg, memWriteWord_ok _ _ h, orStop_ok]

theorem exec_push_stop (h : ¬ AccessOk (s.sp - 2)) :
    exec (.push rd) s = .fault (.invalidAddress (s.sp - 2) (s.setSp (s.sp - 2))) := by
  simp only [exec, execPush, State.setSp_sp, State.setSp_getReg, memWriteWord_stop _ _ h, orStop_error]

theorem exec_pop_ok (h : AccessOk s.sp) :
    exec (.pop rd) s = .next ((s.setReg rd (wordOfBytes (s.byteAt s.sp) (s.byteAt (s.sp + 1)))).setSp (s.sp + 2)) := by
  simp only [exec, execPop, memReadWord_ok s h, orStop_ok, State.setReg_sp]

theorem exec_pop_stop (h : ¬ AccessOk s.sp) : exec (.pop rd) s = .fault (.invalidAddress s.sp s) := by
  simp only [exec, execPop, memReadWord_stop s h, orStop_error]

end

/-! ## The step -/

/-- The four answers of a fetch (R143). -/
theorem fetch_cases (s : State) :
    fetch s = .error (.debugInterrupt s) ∨ (∃ w, fetch s = .error (.unknownInstruction w (s.setPc (s.pc + 2)))) ∨
      (¬ AccessOk s.pc ∧ fetch s = .error (.invalidAddress s.pc s)) ∨ ∃ i, fetch s = .ok (i, s.setPc (s.pc + 2)) := by
  by_cases h : AccessOk s.pc
  · cases hd : decodeWord (wordOfBytes (s.byteAt s.pc) (s.byteAt (s.pc + 1))) with
    | ok i => exact .inr (.inr (.inr ⟨i, fetch_instr s i h hd⟩))
    | error e =>
      rcases decodeWord_error hd with ⟨h0, -⟩ | ⟨h0, rfl⟩
      · exact .inl (fetch_zero s h h0)
      · exact .inr (.inl ⟨_, fetch_unknown s _ h hd⟩)
  · exact .inr (.inr (.inl ⟨h, fetch_invalid s h⟩))

/-- A completed step fetched an instruction and ran it with `pc` advanced. -/
theorem step_next_inv {s t : State} (h : step s = .next t) :
    ∃ i, fetch s = .ok (i, s.setPc (s.pc + 2)) ∧ exec i (s.setPc (s.pc + 2)) = .next t := by
  unfold step at h
  rcases fetch_cases s with hf | ⟨w, hf⟩ | ⟨-, hf⟩ | ⟨i, hf⟩ <;> rw [hf] at h
  · cases h
  · cases h
  · cases h
  · exact ⟨i, hf, h⟩

/-- What comes after an access is refused only where its continuation is. -/
theorem orStop_ne_refused {α : Type} {r : Refusal} (x : Except Fault α) {go : α → Result} (h : ∀ v, go v ≠ .refused r) :
    orStop x go ≠ .refused r := by
  cases x with
  | ok v => exact h v
  | error f => nofun

/-- No instruction is refused: every arm of `exec` has a meaning, and no meaning refuses. -/
theorem exec_ne_refused (i : Instr) (s : State) (r : Refusal) : exec i s ≠ .refused r := by
  intro h
  cases i <;> first | cases h | exact orStop_ne_refused _ (fun _ h => by cases h) h

/-- No step is refused. -/
theorem step_ne_refused (s : State) (r : Refusal) : step s ≠ .refused r := by
  unfold step
  cases fetch s with
  | error f => nofun
  | ok p => exact exec_ne_refused p.1 p.2 r

end Sys2Proof.Machine
end

