-- ==== Sys2Proof/Laws/PerInstr.lean ====
section
/-! SUPPORT. One lemma per constructor of Instr: its canonical word is no sentinel and lies in its row of the opcode map
(R56, R61, R65). -/

namespace Sys2Proof.Laws.RowMatch

/-- The canonical word of an instruction is not `0x0000`, and the row of R56 it belongs to covers it. -/
def Statement (i : Instr) : Prop := ∃ row ∈ opcodeMap, row.number = i.rowNumber ∧ row.covers (encode i) = true

/-- A row that fixes func and opcode covers the words with that func, not zero, and that opcode. -/
theorem covers_func {n : Nat} {m : String} {f op : BitVec 5} {rs rd : Reg} {bits : Word}
    (hb : packRI f .x0 .x0 op = bits) (hf : f ≠ 0) :
    (OpRow.mk n m bits 0xF81F).covers (packRI f rs rd op) = true := by
  have h0 : packRI f rs rd op ≠ 0 := fun h => hf (by
    have := congrArg funcField h
    rwa [funcField_packRI] at this)
  have hm : packRI f rs rd op &&& 0xF81F = bits := by
    rw [mask_func_opcode, funcField_packRI, opcodeField_packRI, hb]
  simp only [OpRow.covers, hm, decide_eq_true h0, decide_true, Bool.and_self]

/-- A row that fixes the opcode alone covers every word with that opcode, if it is not zero. -/
theorem covers_opcode {n : Nat} {m : String} {op : BitVec 5} {w bits : Word} (hw : opcodeField w = op)
    (hb : packRI 0 .x0 .x0 op = bits) (ho : op ≠ 0) : (OpRow.mk n m bits 0x001F).covers w = true := by
  have h0 : w ≠ 0 := fun h => ho (by rw [← hw, h]; rfl)
  have hm : w &&& 0x001F = bits := by rw [mask_opcode, hw, hb]
  simp only [OpRow.covers, hm, decide_eq_true h0, decide_true, Bool.and_self]

theorem mov (rd rs : Reg) : Statement (.mov rd rs) :=
  ⟨⟨1, "mov", 0x0800, 0xF81F⟩, by simp [opcodeMap, opcodeMapR], rfl, covers_func (by decide) (by decide)⟩

theorem add (rd rs : Reg) : Statement (.add rd rs) :=
  ⟨⟨2, "add", 0x1000, 0xF81F⟩, by simp [opcodeMap, opcodeMapR], rfl, covers_func (by decide) (by decide)⟩

theorem sub (rd rs : Reg) : Statement (.sub rd rs) :=
  ⟨⟨3, "sub", 0x1800, 0xF81F⟩, by simp [opcodeMap, opcodeMapR], rfl, covers_func (by decide) (by decide)⟩

theorem and (rd rs : Reg) : Statement (.and rd rs) :=
  ⟨⟨4, "and", 0x2000, 0xF81F⟩, by simp [opcodeMap, opcodeMapR], rfl, covers_func (by decide) (by decide)⟩

theorem or (rd rs : Reg) : Statement (.or rd rs) :=
  ⟨⟨5, "or", 0x2800, 0xF81F⟩, by simp [opcodeMap, opcodeMapR], rfl, covers_func (by decide) (by decide)⟩

theorem xor (rd rs : Reg) : Statement (.xor rd rs) :=
  ⟨⟨6, "xor", 0x3000, 0xF81F⟩, by simp [opcodeMap, opcodeMapR], rfl, covers_func (by decide) (by decide)⟩

theorem sll (rd rs : Reg) : Statement (.sll rd rs) :=
  ⟨⟨7, "sll", 0x3800, 0xF81F⟩, by simp [opcodeMap, opcodeMapR], rfl, covers_func (by decide) (by decide)⟩

theorem srl (rd rs : Reg) : Statement (.srl rd rs) :=
  ⟨⟨8, "srl", 0x4000, 0xF81F⟩, by simp [opcodeMap, opcodeMapR], rfl, covers_func (by decide) (by decide)⟩

theorem sra (rd rs : Reg) : Statement (.sra rd rs) :=
  ⟨⟨9, "sra", 0x4800, 0xF81F⟩, by simp [opcodeMap, opcodeMapR], rfl, covers_func (by decide) (by decide)⟩

theorem addi (rd rs : Reg) (imm : Imm5) : Statement (.addi rd rs imm) :=
  ⟨⟨10, "addi", 0x0001, 0x001F⟩, by simp [opcodeMap, opcodeMapI], rfl, covers_opcode (opcodeField_packRI _ _ _ _) (by decide) (by decide)⟩

theorem subi (rd rs : Reg) (imm : Imm5) : Statement (.subi rd rs imm) :=
  ⟨⟨11, "subi", 0x0002, 0x001F⟩, by simp [opcodeMap, opcodeMapI], rfl, covers_opcode (opcodeField_packRI _ _ _ _) (by decide) (by decide)⟩

theorem beq (rd rs : Reg) (imm : Imm5) : Statement (.beq rd rs imm) :=
  ⟨⟨12, "beq", 0x0003, 0x001F⟩, by simp [opcodeMap, opcodeMapI], rfl, covers_opcode (opcodeField_packRI _ _ _ _) (by decide) (by decide)⟩

theorem bnq (rd rs : Reg) (imm : Imm5) : Statement (.bnq rd rs imm) :=
  ⟨⟨13, "bnq", 0x0004, 0x001F⟩, by simp [opcodeMap, opcodeMapI], rfl, covers_opcode (opcodeField_packRI _ _ _ _) (by decide) (by decide)⟩

theorem blt (rd rs : Reg) (imm : Imm5) : Statement (.blt rd rs imm) :=
  ⟨⟨14, "blt", 0x0005, 0x001F⟩, by simp [opcodeMap, opcodeMapI], rfl, covers_opcode (opcodeField_packRI _ _ _ _) (by decide) (by decide)⟩

theorem bge (rd rs : Reg) (imm : Imm5) : Statement (.bge rd rs imm) :=
  ⟨⟨15, "bge", 0x0006, 0x001F⟩, by simp [opcodeMap, opcodeMapI], rfl, covers_opcode (opcodeField_packRI _ _ _ _) (by decide) (by decide)⟩

theorem bltu (rd rs : Reg) (imm : Imm5) : Statement (.bltu rd rs imm) :=
  ⟨⟨16, "bltu", 0x0007, 0x001F⟩, by simp [opcodeMap, opcodeMapI], rfl, covers_opcode (opcodeField_packRI _ _ _ _) (by decide) (by decide)⟩

theorem bgeu (rd rs : Reg) (imm : Imm5) : Statement (.bgeu rd rs imm) :=
  ⟨⟨17, "bgeu", 0x0008, 0x001F⟩, by simp [opcodeMap, opcodeMapI], rfl, covers_opcode (opcodeField_packRI _ _ _ _) (by decide) (by decide)⟩

theorem jalr (rd rs : Reg) (imm : Imm5) : Statement (.jalr rd rs imm) :=
  ⟨⟨18, "jalr", 0x0009, 0x001F⟩, by simp [opcodeMap, opcodeMapI], rfl, covers_opcode (opcodeField_packRI _ _ _ _) (by decide) (by decide)⟩

theorem lh (rd rs : Reg) (imm : Imm5) : Statement (.lh rd rs imm) :=
  ⟨⟨19, "lh", 0x000A, 0x001F⟩, by simp [opcodeMap, opcodeMapI], rfl, covers_opcode (opcodeField_packRI _ _ _ _) (by decide) (by decide)⟩

theorem lhu (rd rs : Reg) (imm : Imm5) : Statement (.lhu rd rs imm) :=
  ⟨⟨20, "lhu", 0x000B, 0x001F⟩, by simp [opcodeMap, opcodeMapI], rfl, covers_opcode (opcodeField_packRI _ _ _ _) (by decide) (by decide)⟩

theorem lw (rd rs : Reg) (imm : Imm5) : Statement (.lw rd rs imm) :=
  ⟨⟨21, "lw", 0x000C, 0x001F⟩, by simp [opcodeMap, opcodeMapI], rfl, covers_opcode (opcodeField_packRI _ _ _ _) (by decide) (by decide)⟩

theorem sh (rd rs : Reg) (imm : Imm5) : Statement (.sh rd rs imm) :=
  ⟨⟨22, "sh", 0x000D, 0x001F⟩, by simp [opcodeMap, opcodeMapI], rfl, covers_opcode (opcodeField_packRI _ _ _ _) (by decide) (by decide)⟩

theorem sw (rd rs : Reg) (imm : Imm5) : Statement (.sw rd rs imm) :=
  ⟨⟨23, "sw", 0x000E, 0x001F⟩, by simp [opcodeMap, opcodeMapI], rfl, covers_opcode (opcodeField_packRI _ _ _ _) (by decide) (by decide)⟩

theorem jal (rd : Reg) (imm : Imm8) : Statement (.jal rd imm) :=
  ⟨⟨24, "jal", 0x000F, 0x001F⟩, by simp [opcodeMap, opcodeMapI], rfl, covers_opcode (opcodeField_packI8 _ _ _) (by decide) (by decide)⟩

theorem lil (rd : Reg) (imm : Imm8) : Statement (.lil rd imm) :=
  ⟨⟨25, "lil", 0x0010, 0x001F⟩, by simp [opcodeMap, opcodeMapI], rfl, covers_opcode (opcodeField_packI8 _ _ _) (by decide) (by decide)⟩

theorem lih (rd : Reg) (imm : Imm8) : Statement (.lih rd imm) :=
  ⟨⟨26, "lih", 0x0011, 0x001F⟩, by simp [opcodeMap, opcodeMapI], rfl, covers_opcode (opcodeField_packI8 _ _ _) (by decide) (by decide)⟩

theorem push (rd : Reg) : Statement (.push rd) :=
  ⟨⟨27, "push", 0x0812, 0xF81F⟩, by simp [opcodeMap, opcodeMapC], rfl, covers_func (f := 1) (rs := .x0) (rd := rd) (op := 18) (by decide) (by decide)⟩

theorem pop (rd : Reg) : Statement (.pop rd) :=
  ⟨⟨28, "pop", 0x1012, 0xF81F⟩, by simp [opcodeMap, opcodeMapC], rfl, covers_func (f := 2) (rs := .x0) (rd := rd) (op := 18) (by decide) (by decide)⟩

theorem rpc (rd : Reg) : Statement (.rpc rd) :=
  ⟨⟨29, "rpc", 0x1812, 0xF81F⟩, by simp [opcodeMap, opcodeMapC], rfl, covers_func (f := 3) (rs := .x0) (rd := rd) (op := 18) (by decide) (by decide)⟩

theorem rsp (rd : Reg) : Statement (.rsp rd) :=
  ⟨⟨30, "rsp", 0x2012, 0xF81F⟩, by simp [opcodeMap, opcodeMapC], rfl, covers_func (f := 4) (rs := .x0) (rd := rd) (op := 18) (by decide) (by decide)⟩

theorem rpsr (rd : Reg) : Statement (.rpsr rd) :=
  ⟨⟨31, "rpsr", 0x2812, 0xF81F⟩, by simp [opcodeMap, opcodeMapC], rfl, covers_func (f := 5) (rs := .x0) (rd := rd) (op := 18) (by decide) (by decide)⟩

theorem rtlr (rd : Reg) : Statement (.rtlr rd) :=
  ⟨⟨32, "rtlr", 0x3012, 0xF81F⟩, by simp [opcodeMap, opcodeMapC], rfl, covers_func (f := 6) (rs := .x0) (rd := rd) (op := 18) (by decide) (by decide)⟩

theorem rthr (rd : Reg) : Statement (.rthr rd) :=
  ⟨⟨33, "rthr", 0x3812, 0xF81F⟩, by simp [opcodeMap, opcodeMapC], rfl, covers_func (f := 7) (rs := .x0) (rd := rd) (op := 18) (by decide) (by decide)⟩

theorem rppc (rd : Reg) : Statement (.rppc rd) :=
  ⟨⟨34, "rppc", 0x4012, 0xF81F⟩, by simp [opcodeMap, opcodeMapC], rfl, covers_func (f := 8) (rs := .x0) (rd := rd) (op := 18) (by decide) (by decide)⟩

theorem rppsr (rd : Reg) : Statement (.rppsr rd) :=
  ⟨⟨35, "rppsr", 0x4812, 0xF81F⟩, by simp [opcodeMap, opcodeMapC], rfl, covers_func (f := 9) (rs := .x0) (rd := rd) (op := 18) (by decide) (by decide)⟩

theorem wsp (rd : Reg) : Statement (.wsp rd) :=
  ⟨⟨36, "wsp", 0x5012, 0xF81F⟩, by simp [opcodeMap, opcodeMapC], rfl, covers_func (f := 10) (rs := .x0) (rd := rd) (op := 18) (by decide) (by decide)⟩

theorem wpsr (rd : Reg) : Statement (.wpsr rd) :=
  ⟨⟨37, "wpsr", 0x5812, 0xF81F⟩, by simp [opcodeMap, opcodeMapC], rfl, covers_func (f := 11) (rs := .x0) (rd := rd) (op := 18) (by decide) (by decide)⟩

theorem wtlr (rd : Reg) : Statement (.wtlr rd) :=
  ⟨⟨38, "wtlr", 0x6012, 0xF81F⟩, by simp [opcodeMap, opcodeMapC], rfl, covers_func (f := 12) (rs := .x0) (rd := rd) (op := 18) (by decide) (by decide)⟩

theorem wthr (rd : Reg) : Statement (.wthr rd) :=
  ⟨⟨39, "wthr", 0x6812, 0xF81F⟩, by simp [opcodeMap, opcodeMapC], rfl, covers_func (f := 13) (rs := .x0) (rd := rd) (op := 18) (by decide) (by decide)⟩

theorem wppc (rd : Reg) : Statement (.wppc rd) :=
  ⟨⟨40, "wppc", 0x7012, 0xF81F⟩, by simp [opcodeMap, opcodeMapC], rfl, covers_func (f := 14) (rs := .x0) (rd := rd) (op := 18) (by decide) (by decide)⟩

theorem wppsr (rd : Reg) : Statement (.wppsr rd) :=
  ⟨⟨41, "wppsr", 0x7812, 0xF81F⟩, by simp [opcodeMap, opcodeMapC], rfl, covers_func (f := 15) (rs := .x0) (rd := rd) (op := 18) (by decide) (by decide)⟩

theorem rfi : Statement .rfi :=
  ⟨⟨42, "rfi", 0x0813, 0xF81F⟩, by simp [opcodeMap, opcodeMapC], rfl, by decide⟩

theorem rtr : Statement .rtr :=
  ⟨⟨43, "rtr", 0x1013, 0xF81F⟩, by simp [opcodeMap, opcodeMapC], rfl, by decide⟩

theorem wtr : Statement .wtr :=
  ⟨⟨44, "wtr", 0x1813, 0xF81F⟩, by simp [opcodeMap, opcodeMapC], rfl, by decide⟩

theorem trap : Statement .trap :=
  ⟨⟨45, "trap", 0xFFFF, 0xFFFF⟩, by simp [opcodeMap, opcodeMapC], rfl, by decide⟩

end Sys2Proof.Laws.RowMatch
end

