-- ==== Sys2Proof/Laws/WellFormed.lean ====
section
/-! SUPPORT. Every term of Instr is well-formed: its operands have their fields' widths. -/

namespace Sys2Proof.Laws

theorem unsigned5_wf (imm : Imm5) : ImmKind.unsigned5.inRange imm.toNat = true := by
  have h := imm.isLt
  simp [ImmKind.inRange, ImmKind.least, ImmKind.greatest]
  omega

theorem signed5_wf (imm : Imm5) : ImmKind.signed5.inRange imm.toInt = true := by
  revert imm
  decide

theorem unsigned8_wf (imm : Imm8) : ImmKind.unsigned8.inRange imm.toNat = true := by
  have h := imm.isLt
  simp [ImmKind.inRange, ImmKind.least, ImmKind.greatest]
  omega

theorem signed8_wf (imm : Imm8) : ImmKind.signed8.inRange imm.toInt = true := by
  revert imm
  decide

theorem instr_wf (i : Instr) : i.wf = true := by
  cases i <;>
    first
      | rfl
      | exact unsigned5_wf _
      | exact signed5_wf _
      | exact unsigned8_wf _
      | exact signed8_wf _

end Sys2Proof.Laws
end

