-- ==== Sys2Proof/Machine/Asm.lean ====
section
/-! DEFINITION. The assembler syntax of R63 (decision D14, UNVERIFIED, notes/assumptions/26.md), as a printer: how an
instruction is written. Not hardware behaviour. -/

namespace Sys2Proof.Machine

/-- One decimal digit. -/
def digit (n : Nat) : String :=
  match n with
  | 0 => "0"
  | 1 => "1"
  | 2 => "2"
  | 3 => "3"
  | 4 => "4"
  | 5 => "5"
  | 6 => "6"
  | 7 => "7"
  | 8 => "8"
  | _ => "9"

/-- A number below 1000 in decimal. -/
def decimal (n : Nat) : String :=
  if n < 10 then digit n
  else if n < 100 then digit (n / 10) ++ digit (n % 10)
  else digit (n / 100) ++ digit (n / 10 % 10) ++ digit (n % 10)

/-- A signed number in decimal. -/
def signedDecimal (v : Int) : String := if v < 0 then "-" ++ decimal v.natAbs else decimal v.natAbs

/-- A register's name. -/
def regName (r : Reg) : String :=
  match r with
  | .x0 => "x0"
  | .x1 => "x1"
  | .x2 => "x2"
  | .x3 => "x3"
  | .x4 => "x4"
  | .x5 => "x5"
  | .x6 => "x6"
  | .x7 => "x7"

/-- `op rd, rs`. -/
def asmRR (op : String) (rd rs : Reg) : String := op ++ " " ++ regName rd ++ ", " ++ regName rs

/-- `op rd, rs, imm`. -/
def asmRRI (op : String) (rd rs : Reg) (imm : Int) : String := asmRR op rd rs ++ ", " ++ signedDecimal imm

/-- `op rd, [rs+imm]`: the sign stands for the `+`, and nothing is written for 0. -/
def asmMem (op : String) (rd rs : Reg) (imm : Int) : String :=
  op ++ " " ++ regName rd ++ ", [" ++ regName rs ++
    (if imm = 0 then "" else if imm < 0 then signedDecimal imm else "+" ++ signedDecimal imm) ++ "]"

/-- `op rd, imm`. -/
def asmRI (op : String) (rd : Reg) (imm : Int) : String := op ++ " " ++ regName rd ++ ", " ++ signedDecimal imm

/-- `op rd`. -/
def asmR (op : String) (rd : Reg) : String := op ++ " " ++ regName rd

/-- An instruction in the syntax of R63. -/
def asm : Instr → String
  | .mov rd rs => asmRR "mov" rd rs
  | .add rd rs => asmRR "add" rd rs
  | .sub rd rs => asmRR "sub" rd rs
  | .and rd rs => asmRR "and" rd rs
  | .or rd rs => asmRR "or" rd rs
  | .xor rd rs => asmRR "xor" rd rs
  | .sll rd rs => asmRR "sll" rd rs
  | .srl rd rs => asmRR "srl" rd rs
  | .sra rd rs => asmRR "sra" rd rs
  | .addi rd rs imm => asmRRI "addi" rd rs imm.toNat
  | .subi rd rs imm => asmRRI "subi" rd rs imm.toNat
  | .beq rd rs imm => asmRRI "beq" rd rs imm.toInt
  | .bnq rd rs imm => asmRRI "bnq" rd rs imm.toInt
  | .blt rd rs imm => asmRRI "blt" rd rs imm.toInt
  | .bge rd rs imm => asmRRI "bge" rd rs imm.toInt
  | .bltu rd rs imm => asmRRI "bltu" rd rs imm.toInt
  | .bgeu rd rs imm => asmRRI "bgeu" rd rs imm.toInt
  | .jalr rd rs imm => asmRRI "jalr" rd rs imm.toInt
  | .lh rd rs imm => asmMem "lh" rd rs imm.toInt
  | .lhu rd rs imm => asmMem "lhu" rd rs imm.toInt
  | .lw rd rs imm => asmMem "lw" rd rs imm.toInt
  | .sh rd rs imm => asmMem "sh" rd rs imm.toInt
  | .sw rd rs imm => asmMem "sw" rd rs imm.toInt
  | .jal rd imm => asmRI "jal" rd imm.toInt
  | .lil rd imm => asmRI "lil" rd imm.toNat
  | .lih rd imm => asmRI "lih" rd imm.toNat
  | .push rd => asmR "push" rd
  | .pop rd => asmR "pop" rd
  | .rpc rd => asmR "rpc" rd
  | .rsp rd => asmR "rsp" rd
  | .rpsr rd => asmR "rpsr" rd
  | .rtlr rd => asmR "rtlr" rd
  | .rthr rd => asmR "rthr" rd
  | .rppc rd => asmR "rppc" rd
  | .rppsr rd => asmR "rppsr" rd
  | .wsp rd => asmR "wsp" rd
  | .wpsr rd => asmR "wpsr" rd
  | .wtlr rd => asmR "wtlr" rd
  | .wthr rd => asmR "wthr" rd
  | .wppc rd => asmR "wppc" rd
  | .wppsr rd => asmR "wppsr" rd
  | .rfi => "rfi"
  | .rtr => "rtr"
  | .wtr => "wtr"
  | .trap => "trap"

end Sys2Proof.Machine
end

