-- ==== Sys2Proof/Tests/Slice0.lean ====
section
/-! SUPPORT. Tests: words written out from the opcode map (R56), one step from the vectors of 95_test_vectors.md (each
named by its number there), the checks of WellFormed, and states that meet the hypotheses of the statements. -/

namespace Sys2Proof.Tests

open Sys2Proof.Machine

/-! ## Helpers -/

/-- The reset state with `pc = 0x8010`, where the vectors fetch. -/
def start : State := State.reset.setPc 0x8010

/-- `start` with `x1` and `x2` set. -/
def with12 (a b : Word) : State := (start.setReg .x1 a).setReg .x2 b

/-- `s` with two bytes set. -/
def bytes2 (s : State) (a : Word) (v : Byte) (c : Word) (u : Byte) : State := (s.setByte a v).setByte c u

/-- The state after one step that fetches the word `w`, where there is one. -/
def after (w : Nat) (s : State) : Option State := nextState (step (s.withFetchWord 16 w))

/-- A register and `pc` after one step. -/
def regPc (w : Nat) (s : State) (r : Reg) : Option (Word × Word) := (after w s).map fun t => (t.getReg r, t.pc)

/-- Two bytes after one step. -/
def mem2 (w : Nat) (s : State) (a c : Word) : Option (Byte × Byte) := (after w s).map fun t => (t.byteAt a, t.byteAt c)

/-- Whether one step that fetches the word `w` stops at an invalid address, and the `pc`, `sp` and `x1` it leaves. -/
def invalid (w : Nat) (s : State) : Option (Word × Word × Word × Word) :=
  match stopOf (step (s.withFetchWord 16 w)) with
  | some (.invalidAddress a t) => some (a, t.pc, t.sp, t.getReg .x1)
  | some (.debugInterrupt _) => none
  | some (.unknownInstruction _ _) => none
  | none => none

/-- Whether one step that fetches the word `w` stops at an unknown instruction, with that word and the `pc` it leaves. -/
def unknown (w : Nat) (s : State) : Option (Word × Word) :=
  match stopOf (step (s.withFetchWord 16 w)) with
  | some (.unknownInstruction v t) => some (v, t.pc)
  | some (.debugInterrupt _) => none
  | some (.invalidAddress _ _) => none
  | none => none

/-! ## Decoding: `opcode`, `rd`, `rs` and `func`, `imm5` or `imm8` put in their places by hand (R51, R52, R56) -/

theorem test_decode_mov : decodeWord 0b0000110101100000 = .ok (.mov .x3 .x5) := by decide
theorem test_decode_add : decodeWord 0b0001001000100000 = .ok (.add .x1 .x2) := by decide
theorem test_decode_sub : decodeWord 0b0001101000100000 = .ok (.sub .x1 .x2) := by decide
theorem test_decode_and : decodeWord 0b0010001000100000 = .ok (.and .x1 .x2) := by decide
theorem test_decode_or : decodeWord 0b0010101000100000 = .ok (.or .x1 .x2) := by decide
theorem test_decode_xor : decodeWord 0b0011001000100000 = .ok (.xor .x1 .x2) := by decide
theorem test_decode_sll : decodeWord 0b0011101000100000 = .ok (.sll .x1 .x2) := by decide
theorem test_decode_srl : decodeWord 0b0100001000100000 = .ok (.srl .x1 .x2) := by decide
theorem test_decode_sra : decodeWord 0b0100101000100000 = .ok (.sra .x1 .x2) := by decide

theorem test_decode_addi : decodeWord 0b0010100000100001 = .ok (.addi .x1 .x0 5) := by decide
theorem test_decode_subi : decodeWord 0b0010101000100010 = .ok (.subi .x1 .x2 5) := by decide
theorem test_decode_beq : decodeWord 0b0011001000100011 = .ok (.beq .x1 .x2 6) := by decide
theorem test_decode_bnq : decodeWord 0b1110001000100100 = .ok (.bnq .x1 .x2 0b11100) := by decide
theorem test_decode_blt : decodeWord 0b0100001000100101 = .ok (.blt .x1 .x2 8) := by decide
theorem test_decode_bge : decodeWord 0b0100001000100110 = .ok (.bge .x1 .x2 8) := by decide
theorem test_decode_bltu : decodeWord 0b0100001000100111 = .ok (.bltu .x1 .x2 8) := by decide
theorem test_decode_bgeu : decodeWord 0b0100001000101000 = .ok (.bgeu .x1 .x2 8) := by decide

theorem test_decode_jalr : decodeWord 0b0010001000101001 = .ok (.jalr .x1 .x2 4) := by decide
theorem test_decode_lh : decodeWord 0b0001101000101010 = .ok (.lh .x1 .x2 3) := by decide
theorem test_decode_lhu : decodeWord 0b0001101000101011 = .ok (.lhu .x1 .x2 3) := by decide
theorem test_decode_lw : decodeWord 0b1111001000101100 = .ok (.lw .x1 .x2 0b11110) := by decide
theorem test_decode_sh : decodeWord 0b0000001000101101 = .ok (.sh .x1 .x2 0) := by decide
theorem test_decode_sw : decodeWord 0b0000101000101110 = .ok (.sw .x1 .x2 1) := by decide
theorem test_decode_jal : decodeWord 0b1111101000101111 = .ok (.jal .x1 0xFA) := by decide
theorem test_decode_lil : decodeWord 0b1100110101110000 = .ok (.lil .x3 0xCD) := by decide
theorem test_decode_lih : decodeWord 0b1010101101110001 = .ok (.lih .x3 0xAB) := by decide

theorem test_decode_push : decodeWord 0b0000100001110010 = .ok (.push .x3) := by decide
theorem test_decode_pop : decodeWord 0b0001000010010010 = .ok (.pop .x4) := by decide
theorem test_decode_rpc : decodeWord 0b0001100001110010 = .ok (.rpc .x3) := by decide
theorem test_decode_rsp : decodeWord 0b0010000001010010 = .ok (.rsp .x2) := by decide
theorem test_decode_rpsr : decodeWord 0b0010100000110010 = .ok (.rpsr .x1) := by decide
theorem test_decode_rtlr : decodeWord 0b0011000000110010 = .ok (.rtlr .x1) := by decide
theorem test_decode_rthr : decodeWord 0b0011100000110010 = .ok (.rthr .x1) := by decide
theorem test_decode_rppc : decodeWord 0b0100000000110010 = .ok (.rppc .x1) := by decide
theorem test_decode_rppsr : decodeWord 0b0100100000110010 = .ok (.rppsr .x1) := by decide
theorem test_decode_wsp : decodeWord 0b0101000000110010 = .ok (.wsp .x1) := by decide
theorem test_decode_wpsr : decodeWord 0b0101100000110010 = .ok (.wpsr .x1) := by decide
theorem test_decode_wtlr : decodeWord 0b0110000000110010 = .ok (.wtlr .x1) := by decide
theorem test_decode_wthr : decodeWord 0b0110100000110010 = .ok (.wthr .x1) := by decide
theorem test_decode_wppc : decodeWord 0b0111000000110010 = .ok (.wppc .x1) := by decide
theorem test_decode_wppsr : decodeWord 0b0111100000110010 = .ok (.wppsr .x1) := by decide

theorem test_decode_rfi : decodeWord 0b0000100000010011 = .ok (.rfi) := by decide
theorem test_decode_rtr : decodeWord 0b0001000000010011 = .ok (.rtr) := by decide
theorem test_decode_wtr : decodeWord 0b0001100000010011 = .ok (.wtr) := by decide
theorem test_decode_trap : decodeWord 0b1111111111111111 = .ok (.trap) := by decide

/-- R61 and the edges of R59. -/
theorem test_decode_sentinel : decodeWord 0x0000 = .error .debugSentinel := by decide

theorem test_decode_func_zero : decodeWord 0x0020 = .error (.unknown 0x0020) := by decide

theorem test_decode_one_bit_short_of_trap : decodeWord 0xFFDF = .error (.unknown 0xFFDF) := by decide

/-- S22, T8: the ignored bits. -/
theorem test_decode_ignored_bits : decodeWord 0x0F12 = .ok (.push .x0) ∧ decodeWord 0x0FF3 = .ok .rfi := by decide

/-- The row of the table is read as numbered: bit 0 is bit 0 of the byte at the lower address. -/
theorem test_decode_table_word : decodeTableWord 16 0x2821 = some (.addi .x1 .x0 5) := by decide

theorem test_decode_truncated : decode [0x21] = .error .truncated := by decide

theorem test_encode_bytes : encodeBytes (.addi .x1 .x0 5) = [0x21, 0x28] := by decide

/-! ## One step (95_test_vectors.md, section 2) -/

/-- A1, A2. -/
theorem test_mov : regPc 0x0D60 (start.setReg .x5 0x1234) .x3 = some (0x1234, 0x8012) := by decide

theorem test_mov_to_x0 : after 0x0D00 (start.setReg .x5 0x1234) =
    some (((start.setReg .x5 0x1234).withFetchWord 16 0x0D00).setPc 0x8012) := by decide

/-- A3. -/
theorem test_add : regPc 0x1220 (with12 0xFFFF 0x0002) .x1 = some (0x0001, 0x8012) := by decide

/-- A4. -/
theorem test_add_same : regPc 0x1120 (with12 0x8000 0) .x1 = some (0x0000, 0x8012) := by decide

/-- A5. -/
theorem test_sub : regPc 0x1A20 (with12 0x0001 0x0002) .x1 = some (0xFFFF, 0x8012) := by decide

/-- A6. -/
theorem test_sub_same : regPc 0x1920 (with12 0x1234 0) .x1 = some (0x0000, 0x8012) := by decide

/-- A7. -/
theorem test_and : regPc 0x2220 (with12 0xF0F0 0x3C3C) .x1 = some (0x3030, 0x8012) := by decide

/-- A8. -/
theorem test_or : regPc 0x2A20 (with12 0xF0F0 0x3C3C) .x1 = some (0xFCFC, 0x8012) := by decide

/-- A9. -/
theorem test_xor : regPc 0x3220 (with12 0xF0F0 0x3C3C) .x1 = some (0xCCCC, 0x8012) := by decide

/-- A10. -/
theorem test_sll : regPc 0x3A20 (with12 0x8001 0x0004) .x1 = some (0x0010, 0x8012) := by decide

/-- A13 (decision D4). -/
theorem test_sll_count_sixteen : regPc 0x3A20 (with12 0x8001 0x0010) .x1 = some (0x8001, 0x8012) := by decide

/-- A11. -/
theorem test_srl : regPc 0x4220 (with12 0x8001 0x0004) .x1 = some (0x0800, 0x8012) := by decide

/-- A15. -/
theorem test_srl_fifteen : regPc 0x4220 (with12 0x8001 0x000F) .x1 = some (0x0001, 0x8012) := by decide

/-- A12. -/
theorem test_sra : regPc 0x4A20 (with12 0x8001 0x0004) .x1 = some (0xF800, 0x8012) := by decide

/-- A14. -/
theorem test_sra_count_thirty_one : regPc 0x4A20 (with12 0x8001 0x001F) .x1 = some (0xFFFF, 0x8012) := by decide

/-- B2. -/
theorem test_addi_wraps : regPc 0x0A21 (with12 0 0xFFFF) .x1 = some (0x0000, 0x8012) := by decide

/-- B3. -/
theorem test_addi_zero_extends : regPc 0xFA21 (with12 0 0x0000) .x1 = some (0x001F, 0x8012) := by decide

/-- B4. -/
theorem test_subi : regPc 0x2A22 (with12 0 0x0003) .x1 = some (0xFFFE, 0x8012) := by decide

/-- B5. -/
theorem test_subi_from_x0 : regPc 0x0822 (with12 0 0) .x1 = some (0xFFFF, 0x8012) := by decide

/-- B7. -/
theorem test_lih : regPc 0xAB71 (start.setReg .x3 0x1234) .x3 = some (0xAB00, 0x8012) := by decide

/-- B8, B9. -/
theorem test_lil : regPc 0xCD70 (start.setReg .x3 0xAB00) .x3 = some (0x00CD, 0x8012) := by decide

theorem test_lil_zero_extends : regPc 0xFF70 (start.setReg .x3 0x00FF) .x3 = some (0x00FF, 0x8012) := by decide

/-- C1. -/
theorem test_beq_taken : regPc 0x3223 (with12 7 7) .x1 = some (7, 0x8016) := by decide

/-- C2. -/
theorem test_beq_not_taken : regPc 0x3223 (with12 7 8) .x1 = some (7, 0x8012) := by decide

/-- C3. -/
theorem test_bnq_backwards : regPc 0xE224 (with12 1 2) .x1 = some (1, 0x800C) := by decide

/-- C4. -/
theorem test_blt_signed : regPc 0x4225 (with12 0xFFFF 1) .x1 = some (0xFFFF, 0x8018) := by decide

/-- C8. -/
theorem test_blt_least_offset : regPc 0x8225 (with12 0x8000 0x7FFF) .x1 = some (0x8000, 0x8000) := by decide

/-- C5. -/
theorem test_bge_signed : regPc 0x4226 (with12 0xFFFF 1) .x1 = some (0xFFFF, 0x8012) := by decide

/-- C6. -/
theorem test_bltu_unsigned : regPc 0x4227 (with12 0xFFFF 1) .x1 = some (0xFFFF, 0x8012) := by decide

/-- C7. -/
theorem test_bgeu_unsigned : regPc 0x4228 (with12 0xFFFF 1) .x1 = some (0xFFFF, 0x8018) := by decide

/-- C11. -/
theorem test_jalr : regPc 0x2229 (with12 0 0x9000) .x1 = some (0x8012, 0x9004) := by decide

/-- C12 (decision D7). -/
theorem test_jalr_link_first : regPc 0x2249 (with12 0 0x9000) .x2 = some (0x8012, 0x8016) := by decide

/-- C15. -/
theorem test_jal_backwards : regPc 0xFA2F start .x1 = some (0x8012, 0x800A) := by decide

/-- C17. -/
theorem test_jal_into_ram : regPc 0x806F start .x3 = some (0x8012, 0x7F90) := by decide

/-- M1, M9. -/
theorem test_lh : regPc 0x1A2A ((with12 0 0x1000).setByte 0x1003 0x80) .x1 = some (0xFF80, 0x8012) := by decide

theorem test_lh_invalid : invalid 0x022A (with12 5 0x7FFF) = some (0x7FFF, 0x8012, 0, 5) := by decide

/-- M2. -/
theorem test_lhu : regPc 0x1A2B ((with12 0 0x1000).setByte 0x1003 0x80) .x1 = some (0x0080, 0x8012) := by decide

/-- M10 (decision D17). -/
theorem test_lhu_to_x0_invalid : invalid 0x020B (with12 5 0x7FFF) = some (0x7FFF, 0x8012, 0, 5) := by decide

/-- M5. -/
theorem test_lw_odd : regPc 0x022C (bytes2 (with12 0 0x1001) 0x1001 0x34 0x1002 0x12) .x1 = some (0x1234, 0x8012) := by decide

/-- M6. -/
theorem test_lw_top_of_ram : regPc 0x022C (bytes2 (with12 0 0x7FFE) 0x7FFE 0x11 0x7FFF 0x22) .x1 = some (0x2211, 0x8012) := by decide

/-- M13. -/
theorem test_sh : mem2 0x022D (bytes2 (with12 0xABCD 0x1000) 0x1000 0x11 0x1001 0x22) 0x1000 0x1001 = some (0xCD, 0x22) := by decide

/-- M11. -/
theorem test_sh_wraps_to_invalid : invalid 0x822D (with12 5 0x000F) = some (0xFFFF, 0x8012, 0, 5) := by decide

/-- M14. -/
theorem test_sw_odd : mem2 0x0A2E (with12 0xABCD 0x1000) 0x1001 0x1002 = some (0xCD, 0xAB) := by decide

/-- M15. -/
theorem test_sw_rom : mem2 0x022E (with12 0xABCD 0x9000) 0x9000 0x9001 = some (0xCD, 0xAB) := by decide

/-- S2. -/
theorem test_push_wraps : ((after 0x0872 (start.setReg .x3 0xBEEF)).map fun t => (t.sp, t.byteAt 0xFFFE, t.byteAt 0xFFFF)) =
    some (0xFFFE, 0xEF, 0xBE) := by decide

/-- S3 (decision D10). -/
theorem test_push_invalid : invalid 0x0872 ((start.setSp 0x0001).setReg .x3 0xBEEF) = some (0xFFFF, 0x8012, 0xFFFF, 0) := by decide

/-- S5. -/
theorem test_pop : ((after 0x1092 (bytes2 (start.setSp 0x3FFE) 0x3FFE 0xEF 0x3FFF 0xBE)).map fun t => (t.getReg .x4, t.sp)) =
    some (0xBEEF, 0x4000) := by decide

/-- S6. -/
theorem test_pop_invalid : invalid 0x1092 (start.setSp 0xFFFF) = some (0xFFFF, 0x8012, 0xFFFF, 0) := by decide

/-- S9 to S15. -/
theorem test_rpc : regPc 0x1872 start .x3 = some (0x8012, 0x8012) := by decide

theorem test_rsp : regPc 0x2052 (start.setSp 0x3FFE) .x2 = some (0x3FFE, 0x8012) := by decide

theorem test_rpsr : regPc 0x2832 (start.setPsr 0x0002) .x1 = some (0x0002, 0x8012) := by decide

theorem test_rtlr : regPc 0x3032 (start.setTlr 0x5678) .x1 = some (0x5678, 0x8012) := by decide

theorem test_rthr : regPc 0x3832 (start.setThr 0x1234) .x1 = some (0x1234, 0x8012) := by decide

theorem test_rppc : regPc 0x4032 (start.setPpc 0x8006) .x1 = some (0x8006, 0x8012) := by decide

theorem test_rppsr : regPc 0x4832 (start.setPpsr 0xA5A5) .x1 = some (0xA5A5, 0x8012) := by decide

/-- S16 to S21. -/
theorem test_wsp : ((after 0x5032 (with12 0x4000 0)).map fun t => t.sp) = some 0x4000 := by decide

theorem test_wpsr : ((after 0x5832 (with12 0xFFFF 0)).map fun t => (t.psr, t.pc)) = some (0xFFFF, 0x8012) := by decide

theorem test_wtlr : ((after 0x6032 (with12 0x5678 0)).map fun t => (t.tlr, t.tr)) = some (0x5678, 0) := by decide

theorem test_wthr : ((after 0x6832 (with12 0x1234 0)).map fun t => (t.thr, t.tr)) = some (0x1234, 0) := by decide

theorem test_wppc : ((after 0x7032 (with12 0x9000 0)).map fun t => (t.ppc, t.pc)) = some (0x9000, 0x8012) := by decide

theorem test_wppsr : ((after 0x7832 (with12 0xA5A5 0)).map fun t => (t.ppsr, t.psr)) = some (0xA5A5, 0) := by decide

/-- T1. -/
theorem test_rfi : ((after 0x0813 ((start.setPpc 0x8006).setPsr 0x0002)).map fun t => (t.pc, t.psr)) = some (0x8006, 0x0000) := by decide

/-- T3, T4. -/
theorem test_rtr : ((after 0x1013 (start.setTr 0x12345678)).map fun t => (t.thr, t.tlr, t.tr)) =
    some (0x1234, 0x5678, 0x12345678) := by decide

theorem test_wtr : ((after 0x1813 ((start.setThr 0x1234).setTlr 0x5678)).map fun t => t.tr) = some 0x12345678 := by decide

/-- T5, T6. -/
theorem test_trap : ((after 0xFFFF (start.setPsr 0x0001)).map fun t => (t.ppc, t.ppsr, t.psr, t.pc)) =
    some (0x8012, 0x0001, 0x0002, 0x0000) := by decide

theorem test_trap_nested : ((after 0xFFFF (((start.setPsr 2).setPpc 0x1111).setPpsr 0x2222)).map fun t => (t.ppc, t.ppsr, t.psr, t.pc)) =
    some (0x8012, 0x0002, 0x0002, 0x0000) := by decide

/-! ## Stops at the fetch (95_test_vectors.md, section 2.7) -/

/-- X1. -/
theorem test_stop_sentinel : stopOf (step start) = some (.debugInterrupt start) := by decide

/-- X3, X9. -/
theorem test_stop_unknown : unknown 0x5000 start = some (0x5000, 0x8012) := by decide

theorem test_stop_unknown_opcode31 : unknown 0x001F start = some (0x001F, 0x8012) := by decide

/-- X13. -/
theorem test_stop_fetch_invalid :
    stopOf (step (start.setPc 0x7FFF)) = some (.invalidAddress 0x7FFF (start.setPc 0x7FFF)) := by decide

/-- X15. -/
theorem test_fetch_odd : regPc 0x2821 (start.setPc 0x8001) .x1 = some (5, 0x8003) := by decide

/-- C18. -/
theorem test_fetch_wraps : regPc 0x0001 (start.setPc 0xFFFE) .x1 = some (0, 0x0000) := by decide

/-! ## Construction and driving -/

/-- V7: a ROM image whose first word is `addi x1, x0, 5`, constructed and stepped. -/
theorem test_construct_and_step :
    (match construct { rom := [0x21, 0x28], ram := [] } with
      | .ok s => (nextState (step s)).map fun t => (t.getReg .x1, t.pc)
      | .error _ => none) = some (5, 0x8002) := by decide

/-- R183: inspection answers as the access primitives do. -/
theorem test_inspect : inspectMem (start.setByte 0x1000 0xAB) 0x1000 true = .ok (.inl 0xAB) ∧ inspectReg start .pc = 0x8010 ∧
    inspectTimer start = 0 := by decide

/-! ## The checks of WellFormed: what each refuses, and the last value it takes -/

theorem test_wf_unsigned5 : ImmKind.unsigned5.field5 32 = none ∧ ImmKind.unsigned5.field5 (-1) = none ∧
    ImmKind.unsigned5.field5 31 = some 31 := by decide

theorem test_wf_signed5 : ImmKind.signed5.field5 16 = none ∧ ImmKind.signed5.field5 (-17) = none ∧
    ImmKind.signed5.field5 (-16) = some 16 := by decide

theorem test_wf_signed8 : ImmKind.signed8.field8 128 = none ∧ ImmKind.signed8.field8 (-129) = none ∧
    ImmKind.signed8.field8 (-128) = some 128 := by decide

theorem test_wf_unsigned8 : ImmKind.unsigned8.field8 256 = none ∧ ImmKind.unsigned8.field8 (-1) = none ∧
    ImmKind.unsigned8.field8 255 = some 255 := by decide

theorem test_wf_width : ImmKind.unsigned8.field5 3 = none ∧ ImmKind.signed5.field8 3 = none := by decide

theorem test_wf_written : immWf (some (.signed5, 16)) = false ∧ immWf (some (.signed5, 15)) = true ∧ immWf none = true := by decide

/-- V10: 32769 bytes are refused, 32768 are not. -/
theorem test_wf_image : imageFits (List.replicate 32769 0) = false ∧ imageFits (List.replicate 32768 0) = true := by
  unfold imageFits
  rw [List.length_replicate, List.length_replicate]
  decide

theorem test_wf_images : Config.Images.wf { rom := List.replicate 32769 0, ram := [] } = false := by
  unfold Config.Images.wf imageFits
  rw [List.length_replicate]
  decide

/-! ## The printed syntax (R63) -/

theorem test_asm_signed : asm (.bnq .x1 .x2 0b11100) = "bnq x1, x2, -4" := by decide

theorem test_asm_memory : asm (.lw .x1 .x2 0b11110) = "lw x1, [x2-2]" ∧ asm (.sw .x1 .x3 0) = "sw x1, [x3]" ∧
    asm (.lhu .x5 .x3 1) = "lhu x5, [x3+1]" := by decide

theorem test_asm_unsigned : asm (.addi .x1 .x2 31) = "addi x1, x2, 31" ∧ asm (.lil .x3 0xCD) = "lil x3, 205" := by decide

/-! ## States and operands that meet the hypotheses of the statements, at the edges of each clause -/

theorem test_witness_RegisterReturnsLastWrite : exec (.add .x0 .x1) (with12 3 4) = .next (with12 3 4) := rfl

theorem test_witness_ResetBootValues : construct { rom := [0x21], ram := [0xFF] } =
    .ok { State.reset with mem := [(0, 0xFF), (0x8000, 0x21)] } := by decide

theorem test_witness_ResetZeroRegisters : construct { rom := [], ram := [] } = .ok State.reset := by decide

theorem test_witness_ResetMemoryHoldsImages :
    (List.replicate 32768 (0xAA : Byte)).length ≤ 32768 ∧ ([] : List Byte).length ≤ 32768 ∧ 32767 < 32768 := by
  rw [List.length_replicate]
  decide

theorem test_witness_OversizeImageRefused :
    32768 < (List.replicate 32769 (0xAA : Byte)).length ∧ (List.replicate 32768 (0xAA : Byte)).length ≤ 32768 := by
  rw [List.length_replicate, List.length_replicate]
  decide

theorem test_witness_AddressSelectsRegion : (0x7FFF : Word).toNat < 0x8000 ∧ 0x8000 ≤ (0x8000 : Word).toNat ∧
    regionOf 0x7FFF = .ram ∧ regionOffset 0x7FFF = 0x7FFF ∧ regionOf 0x8000 = .rom ∧ regionOffset 0x8000 = 0 := by decide

theorem test_witness_AccessRefusedAtRegionTop : memReadByte start 0x7FFF = .error (.invalidAddress 0x7FFF start) ∧
    memReadByte start 0xFFFF = .error (.invalidAddress 0xFFFF start) ∧
    memReadByte start 0x7FFE = .ok 0 ∧ memReadByte start 0x8000 = .ok 0 := by decide

theorem test_witness_ReadValueLittleEndian : (0x7FFE : Word) ≠ 0x7FFF ∧ (0x7FFE : Word) ≠ 0xFFFF ∧
    effAddr (with12 0 0x7FFF) .x2 0b11111 = 0x7FFE := by decide

theorem test_witness_WordWriteEffect : (0xFFFE : Word) ≠ 0x7FFF ∧ (0xFFFE : Word) ≠ 0xFFFF ∧
    memWriteWord start 0xFFFE 0xABCD = .ok (bytes2 start 0xFFFE 0xCD 0xFFFF 0xAB) := by decide

theorem test_witness_ByteWriteEffect : memWriteByte start 0xFFFF 1 = .error (.invalidAddress 0xFFFF start) ∧
    memWriteWord start 0x7FFF 1 = .error (.invalidAddress 0x7FFF start) ∧
    memReadByte start 0xFFFF = .error (.invalidAddress 0xFFFF start) ∧
    memReadWord start 0x7FFF = .error (.invalidAddress 0x7FFF start) ∧
    memWriteByte start 0x8000 1 = .ok (start.setByte 0x8000 1) := by decide

theorem test_witness_WordsAreLittleEndian : memWriteWord start 0x1000 0x2821 = .ok (bytes2 start 0x1000 0x21 0x1001 0x28) ∧
    (0x1000 : Word) + 1 ≠ 0x7FFF ∧ (0x1000 : Word) + 1 ≠ 0xFFFF ∧ decodeWord 0x2821 = .ok (.addi .x1 .x0 5) := by decide

theorem test_witness_RomIsWritable : 0x8000 ≤ (effAddr (with12 0x2821 0x8000) .x2 0).toNat ∧
    effAddr (with12 0x2821 0x8000) .x2 0 ≠ 0xFFFF ∧ decodeWord ((with12 0x2821 0x8000).getReg .x1) = .ok (.addi .x1 .x0 5) ∧
    0x8000 ≤ ((with12 0x2821 0x8000).sp - 2).toNat ∧ (with12 0x2821 0x8000).sp - 2 ≠ 0xFFFF := by decide

/-- `sh` stores `0x21` at `0x8010`: the low byte of the word `0x0021` there, the high byte of the word `0x2101` below. -/
theorem test_witness_RomIsWritable_sh :
    let s := (with12 0x2821 0x8010).setByte 0x800F 0x01
    effAddr s .x2 0 = 0x8010 ∧ (0x8010 : Word) ≠ 0x8000 ∧
    decodeWord (s.byteAt (0x8010 + 1) ++ (s.getReg .x1).extractLsb' 0 8) = .ok (.addi .x1 .x0 0) ∧
    decodeWord ((s.getReg .x1).extractLsb' 0 8 ++ s.byteAt (0x8010 - 1)) = .ok (.addi .x0 .x1 4) := by decide

theorem test_witness_OddAddressesWork : (0x8001 : Word).toNat % 2 = 1 ∧ (0x8001 : Word) ≠ 0x7FFF ∧ (0x8001 : Word) ≠ 0xFFFF ∧
    decodeWord ((bytes2 start 0x8001 0x21 0x8002 0x28).byteAt (0x8001 + 1) ++ (bytes2 start 0x8001 0x21 0x8002 0x28).byteAt 0x8001) =
      .ok (.addi .x1 .x0 5) := by decide

theorem test_witness_NextFetchSeesStore :
    exec (.sw .x1 .x2 0) (with12 0x2821 0x8010) = .next (bytes2 (with12 0x2821 0x8010) 0x8010 0x21 0x8011 0x28) ∧
    (with12 0x2821 0x8010).pc = effAddr (with12 0x2821 0x8010) .x2 0 ∧
    decodeWord ((with12 0x2821 0x8010).getReg .x1) = .ok (.addi .x1 .x0 5) := ⟨rfl, rfl, rfl⟩

theorem test_witness_EncodeOfDecode : decodeWord 0x0F12 = .ok (.push .x0) ∧ opcodeField 0x0F12 = 18 ∧
    decodeWord 0x0FF3 = .ok .rfi ∧ opcodeField 0x0FF3 = 19 ∧ decodeWord 0x2821 = .ok (.addi .x1 .x0 5) := by decide

theorem test_witness_IgnoredBitsAreIgnored : decodeWord 0x0812 = .ok (.push .x0) ∧ opcodeField 0x0812 = 18 ∧
    (0x0F12 : Word) &&& 0xF8FF = 0x0812 &&& 0xF8FF ∧ decodeWord 0x0813 = .ok .rfi ∧ opcodeField 0x0813 = 19 ∧
    (0x0FF3 : Word) &&& 0xF81F = 0x0813 &&& 0xF81F := by decide

theorem test_witness_StepRunsDecodedInstruction : start.pc ≠ 0x7FFF ∧ start.pc ≠ 0xFFFF ∧
    decodeWord ((bytes2 start 0x8010 0x21 0x8011 0x28).byteAt 0x8011 ++ (bytes2 start 0x8010 0x21 0x8011 0x28).byteAt 0x8010) =
      .ok (.addi .x1 .x0 5) ∧
    (start.setPc 0x7FFF).pc = 0x7FFF ∧ start.byteAt (start.pc + 1) ++ start.byteAt start.pc = (0x0000 : Word) := by decide

theorem test_witness_FetchAtRegionTopStops : (start.setPc 0x7FFF).pc = 0x7FFF ∧ (start.setPc 0xFFFF).pc = 0xFFFF ∧
    (0xFFFE : Word).toNat % 2 = 0 := by decide

theorem test_witness_ZeroWordStops : start.pc ≠ 0x7FFF ∧ start.pc ≠ 0xFFFF ∧ start.byteAt start.pc = 0 ∧
    start.byteAt (start.pc + 1) = 0 := by decide

theorem test_witness_IllegalWordStops : (0x0020 : Word) =
      (start.setByte 0x8010 0x20).byteAt ((start.setByte 0x8010 0x20).pc + 1) ++
        (start.setByte 0x8010 0x20).byteAt (start.setByte 0x8010 0x20).pc ∧
    decodeWord 0x0020 = .error (.unknown 0x0020) := by decide

theorem test_witness_StopsSaveNothing : step start = .fault (.debugInterrupt start) := rfl

theorem test_witness_OnlyMemoryInstructionsStop :
    exec (.pop .x1) (start.setSp 0xFFFF) = .fault (.invalidAddress 0xFFFF (start.setSp 0xFFFF)) := rfl

theorem test_witness_ExecutionInvalidAddressState : effAddr (with12 0 0x7FFF) .x2 0 = 0x7FFF ∧
    effAddr (with12 0 0x000F) .x2 0b10000 = 0xFFFF ∧ (start.setSp 0x8001).sp = 0x8001 ∧ (start.setSp 0x0001).sp = 0x0001 ∧
    (start.setSp 0x7FFF).sp = 0x7FFF ∧ (start.setSp 0xFFFF).sp = 0xFFFF := by decide

theorem test_witness_LoadImmediatesOverwrite : decodeWord 0xCD70 = .ok (.lil .x3 0xCD) ∧
    decodeWord 0xAB71 = .ok (.lih .x3 0xAB) := by decide

theorem test_witness_TransferTargetsRelative : (with12 7 7).getReg .x1 = (with12 7 7).getReg .x2 ∧
    (with12 7 8).getReg .x1 ≠ (with12 7 8).getReg .x2 ∧
    ((with12 0xFFFF 1).getReg .x1).toInt < ((with12 0xFFFF 1).getReg .x2).toInt ∧
    ((with12 7 7).getReg .x2).toInt ≤ ((with12 7 7).getReg .x1).toInt ∧
    ((with12 1 0xFFFF).getReg .x1).toNat < ((with12 1 0xFFFF).getReg .x2).toNat ∧
    ((with12 7 7).getReg .x2).toNat ≤ ((with12 7 7).getReg .x1).toNat := by decide

/-- C14's kind of target: a branch can reach an address no fetch can start at. -/
theorem test_witness_TransferTargetsRelative_top :
    ∃ t, exec (.beq .x0 .x0 15) (start.setPc 0xFFF2) = .next t ∧ t.pc = 0xFFFF := ⟨_, rfl, by decide⟩

theorem test_witness_EffectiveAddress : (effAddr start .x0 15).toNat = 0x000F ∧ (effAddr start .x0 0b10000).toNat = 0xFFF0 ∧
    exec (.sw .x1 .x2 0) (with12 0xABCD 0x1000) = .next (bytes2 (with12 0xABCD 0x1000) 0x1000 0xCD 0x1001 0xAB) ∧
    exec (.lw .x1 .x2 0) (with12 0xABCD 0x1000) = .next (with12 0 0x1000) ∧ Reg.x2 ≠ Reg.x1 :=
  ⟨by decide, by decide, rfl, rfl, by decide⟩

theorem test_witness_LoadResults : effAddr (with12 0 0x7FFE) .x2 0 ≠ 0x7FFF ∧ effAddr (with12 0 0x7FFE) .x2 0 ≠ 0xFFFF := by decide

theorem test_witness_StoreResults : effAddr (with12 0 0xFFFE) .x2 0 ≠ 0x7FFF ∧ effAddr (with12 0 0xFFFE) .x2 0 ≠ 0xFFFF := by decide

theorem test_witness_StoreThenLoad : effAddr (with12 0 0x8000) .x2 0 ≠ 0x7FFF ∧ effAddr (with12 0 0x8000) .x2 0 ≠ 0xFFFF := by decide

theorem test_witness_PushResult : start.sp - 2 ≠ 0x7FFF ∧ start.sp - 2 ≠ 0xFFFF := by decide

theorem test_witness_PopResult : (start.setSp 0xFFFE).sp ≠ 0x7FFF ∧ (start.setSp 0xFFFE).sp ≠ 0xFFFF := by decide

theorem test_witness_PushThenPop : start.sp ≠ 0x0001 ∧ start.sp ≠ 0x8001 := by decide

theorem test_witness_TimerStagingHalves : exec (.rtlr .x1) (start.setTlr 0x5678) = .next ((start.setTlr 0x5678).setReg .x1 0x5678) ∧
    Instr.rtlr .x1 ≠ .rtr ∧ Instr.rtlr .x1 ≠ .wtr ∧ (∀ r, Instr.rtlr .x1 ≠ .wtlr r) ∧ ∀ r, Instr.rtlr .x1 ≠ .wthr r :=
  ⟨rfl, by decide, by decide, fun _ => by simp, fun _ => by simp⟩

theorem test_witness_TrapEntry : (bytes2 start 0x8010 0xFF 0x8011 0xFF).pc ≠ 0x7FFF ∧
    (bytes2 start 0x8010 0xFF 0x8011 0xFF).pc ≠ 0xFFFF ∧
    (bytes2 start 0x8010 0xFF 0x8011 0xFF).byteAt (bytes2 start 0x8010 0xFF 0x8011 0xFF).pc = 0xFF ∧
    (bytes2 start 0x8010 0xFF 0x8011 0xFF).byteAt ((bytes2 start 0x8010 0xFF 0x8011 0xFF).pc + 1) = 0xFF := by decide

theorem test_witness_TrapReturn : exec .trap start = .next (enterTrap start) ∧
    exec .rfi (enterTrap start) = .next (returnFromTrap (enterTrap start)) ∧
    exec (.wppc .x1) (with12 3 4) = .next ((with12 3 4).setPpc 3) ∧
    exec (.wppsr .x2) ((with12 3 4).setPpc 3) = .next (((with12 3 4).setPpc 3).setPpsr 4) ∧
    exec .rfi (((with12 3 4).setPpc 3).setPpsr 4) = .next (((((with12 3 4).setPpc 3).setPpsr 4).setPc 3).setPsr 4) :=
  ⟨rfl, rfl, rfl, rfl, rfl⟩

theorem test_witness_EmptyTrapHandlerStops :
    (bytes2 start 0x8010 0xFF 0x8011 0xFF).byteAt 0x8010 = 0xFF ∧ (bytes2 start 0x8010 0xFF 0x8011 0xFF).byteAt 0x8011 = 0xFF ∧
    (bytes2 start 0x8010 0xFF 0x8011 0xFF).byteAt 0x0000 = 0 ∧ (bytes2 start 0x8010 0xFF 0x8011 0xFF).byteAt 0x0001 = 0 ∧
    (bytes2 start 0x8010 0xFF 0x8011 0xFF).pc = 0x8010 := by decide

theorem test_witness_InstructionFrames :
    exec (.push .x1) (with12 0xABCD 0) = .next (bytes2 ((with12 0xABCD 0).setSp 0xFFFE) 0xFFFE 0xCD 0xFFFF 0xAB) := rfl

theorem test_witness_ControlRegisterWriters :
    ∃ t, step ((with12 3 4).withFetchWord 16 0x5832) = .next t ∧ t.psr ≠ (with12 3 4).psr := ⟨_, rfl, by decide⟩

theorem test_witness_PsrChangesNoBehaviour : touchesPsr (.add .x1 .x2) = false ∧
    ∃ i u, fetch (start.withFetchWord 16 0x2821) = .ok (i, u) := ⟨by decide, _, _, rfl⟩

theorem test_witness_StepKeepsMemoryCanonical : MemoryCanonical (with12 0xABCD 0x1000) ∧
    ∃ t, step ((with12 0xABCD 0x1000).withFetchWord 16 0x022E) = .next t := ⟨by unfold MemoryCanonical; decide, _, rfl⟩

theorem test_witness_ConstructedMemoryCanonical : construct { rom := [0, 1], ram := [2] } =
    .ok { State.reset with mem := [(0, 2), (0x8001, 1)] } := by decide

theorem test_witness_RunEndsAtFirstStopOrAddress :
    (∃ u, run (some 0x8012) 5 (start.withFetchWord 16 0x2821) = .reachedStopAddress u) ∧
    (∃ f, run none 5 (start.withFetchWord 16 0x2821) = .stopped f) ∧
    (∃ u, run none 1 (start.withFetchWord 16 0x2821) = .outOfFuel u) := ⟨⟨_, rfl⟩, ⟨_, rfl⟩, ⟨_, rfl⟩⟩

end Sys2Proof.Tests
end

/-! PROOFS of the family 10_state: registers, reset and what one step runs (R11, R14, R26, R28). -/

namespace Sys2Proof.Machine

/-! ## Registers (R11) -/

/-- Reading after a list of writes. Induction from the end of the list: the write made last is the first one found. -/
theorem State.getReg_foldl_setReg (writes : List (Reg × Word)) (s : State) {q : Reg} (hq : q ≠ .x0) :
    (writes.foldl (fun u w => u.setReg w.1 w.2) s).getReg q =
      ((writes.reverse.find? fun w => decide (w.1 = q)).map Prod.snd).getD (s.getReg q) := by
  induction writes using List.reverseRecOn with
  | nil => rfl
  | append_singleton ws w ih =>
    rw [List.foldl_concat, List.reverse_concat, List.find?_cons]
    by_cases hw : w.1 = q
    · subst hw
      simp [State.getReg_setReg_self _ _ _ hq]
    · rw [State.getReg_setReg_ne _ _ _ _ (Ne.symm hw), ih]
      simp [hw]

/-- Settles O1, by the last-write law for the other registers; `x0` has no storage, so no state reads it as nonzero. -/
theorem registerReturnsLastWrite : Obligations.RegisterReturnsLastWrite := by
  refine ⟨fun writes s q => ?_, State.setReg_x0, fun _ _ t _ => State.getReg_x0 t⟩
  split_ifs with hq
  · rw [hq, State.getReg_x0]
  · exact State.getReg_foldl_setReg writes s hq

/-! ## Construction (R26, R28, R33) -/

theorem imageFits_iff (bytes : List Byte) : imageFits bytes = true ↔ bytes.length ≤ 32768 := decide_eq_true_iff

/-- A machine is constructed exactly when both images fit, and it is the reset state with the images in memory. -/
theorem construct_eq_ok_iff (c : Config.Images) (s : State) :
    construct c = .ok s ↔
      c.rom.length ≤ 32768 ∧ c.ram.length ≤ 32768 ∧ s = State.resetWith (memoryOf c) := by
  rw [← imageFits_iff, ← imageFits_iff, construct]
  cases imageFits c.rom <;> cases imageFits c.ram <;> simp [eq_comm]

theorem Memory.read_append_of_unlisted {m n : Memory} {a : Nat} (h : Memory.read n a = Memory.unlisted) :
    Memory.read (m ++ n) a = Memory.read m a := by
  rw [Memory.read_append]
  split_ifs with ha
  · rfl
  · rw [h, Memory.read_absent fun cell hc he => ha (List.mem_map.2 ⟨cell, hc, he⟩)]

theorem Memory.read_append_of_absent {m n : Memory} {a : Nat} (h : ∀ cell ∈ m, cell.1 ≠ a) :
    Memory.read (m ++ n) a = Memory.read n a := by
  have ha : a ∉ m.map Prod.fst := fun ha => by
    obtain ⟨cell, hc, he⟩ := List.mem_map.1 ha
    exact h cell hc he
  rw [Memory.read_append, if_neg ha]

/-- Below `0x8000` the ROM image lists nothing, whatever its length. -/
theorem read_memoryOf_ram (c : Config.Images) {i : Nat} (hi : i < 32768) :
    Memory.read (memoryOf c) i = c.ram.getD i 0x00 := by
  have hrom : Memory.read (Memory.ofImage Region.rom.base c.rom) i = Memory.unlisted := by
    rw [Memory.read_ofImage, if_neg (by simpa [Region.base] using hi)]
  rw [memoryOf, Memory.read_append_of_unlisted hrom, Memory.read_ofImage]
  simp [Region.base, Memory.unlisted]

/-- A RAM image that fits lists nothing from `0x8000` on. -/
theorem read_memoryOf_rom (c : Config.Images) (hram : c.ram.length ≤ 32768) (i : Nat) :
    Memory.read (memoryOf c) (0x8000 + i) = c.rom.getD i 0x00 := by
  have habs : ∀ cell ∈ Memory.ofImage Region.ram.base c.ram, cell.1 ≠ 0x8000 + i := fun cell hc => by
    have hlt := (Memory.mem_ofImage _ _ cell hc).2
    simp only [Region.base] at hlt
    omega
  rw [memoryOf, Memory.read_append_of_absent habs, Memory.read_ofImage]
  simp [Region.base, Memory.unlisted]

/-- The byte the reset state reads at a number inside the 16-bit space. -/
theorem byteAt_resetWith_ofNat (m : Memory) {a : Nat} (ha : a < 65536) :
    (State.resetWith m).byteAt (BitVec.ofNat 16 a) = Memory.read m a := by
  rw [State.byteAt, BitVec.toNat_ofNat, Nat.mod_eq_of_lt ha]
  rfl

/-- Settles O4, by reading the two images where construction lays them out. -/
theorem resetMemoryHoldsImages : Obligations.ResetMemoryHoldsImages := by
  intro c hram hrom
  refine ⟨_, (construct_eq_ok_iff c _).2 ⟨hrom, hram, rfl⟩, fun i hi => ⟨?_, ?_⟩⟩
  · rw [byteAt_resetWith_ofNat _ (by omega), read_memoryOf_ram c hi]
  · rw [byteAt_resetWith_ofNat _ (by omega), read_memoryOf_rom c hram]

/-- Settles O2: what `construct` answers is the reset state, its boot values the same for every memory. -/
theorem resetBootValues : Obligations.ResetBootValues := by
  refine ⟨⟨rfl, rfl, State.getReg_x0 _⟩, fun c s h => ?_⟩
  obtain ⟨-, -, rfl⟩ := (construct_eq_ok_iff c s).1 h
  exact ⟨rfl, rfl, State.getReg_x0 _⟩

/-! ## The step (R14, R143) -/

theorem step_of_fetch_ok {s u : State} {i : Instr} (h : fetch s = .ok (i, u)) : step s = exec i u := by
  rw [step, h]

theorem step_of_fetch_error {s : State} {f : Fault} (h : fetch s = .error f) : step s = .fault f := by
  rw [step, h]

/-- Settles O21, by the cases of `fetch`, and for the readers of `pc` by the register each writes it to. -/
theorem stepRunsDecodedInstruction : Obligations.StepRunsDecodedInstruction := by
  intro s
  refine ⟨fun h1 h2 i hi => ?_, fun hpc => ?_, fun h1 h2 hw => ?_, fun rd rs imm imm8 hrd => ?_⟩
  · exact step_of_fetch_ok (fetch_instr s i (accessOk_of_ne h1 h2) hi)
  · exact ⟨_, step_of_fetch_error (fetch_invalid s ((not_accessOk_iff _).2 hpc)), rfl⟩
  · exact ⟨_, step_of_fetch_error (fetch_zero s (accessOk_of_ne h1 h2) hw), rfl⟩
  · have hlink : (s.setReg rd s.pc).getReg rd = s.pc := State.getReg_setReg_self s rd s.pc hrd
    exact ⟨⟨_, rfl, hlink⟩, ⟨_, rfl, hlink⟩, ⟨_, rfl, hlink⟩, ⟨_, rfl, rfl⟩⟩

end Sys2Proof.Machine

/-! PROOFS of the family 20_memory: the regions, the access primitives, byte order (R31, R34, R36 to R41). -/

namespace Sys2Proof.Machine

/-! ## The address decoder (R31, R36) -/

theorem regionOf_eq (a : Word) : regionOf a = if 0x8000 ≤ a.toNat then .rom else .ram := by
  have hbit : a.getLsbD 15 = decide (0x8000 ≤ a.toNat) :=
    (BitVec.msb_eq_getLsbD_last a).symm.trans (BitVec.msb_eq_decide a)
  rw [regionOf, hbit]
  simp only [decide_eq_true_eq]

/-- Settles O6: bit 15 is the comparison with `0x8000`, and the offset is the address modulo the region's size. -/
theorem addressSelectsRegion : Obligations.AddressSelectsRegion := by
  intro a
  have ha := a.isLt
  rw [regionOf_eq, regionOffset_eq]
  refine ⟨fun hlo => ⟨if_neg (by omega), by omega⟩, fun hhi => ⟨if_pos hhi, by omega⟩, by omega⟩

/-- The addresses of ROM that can be accessed (R36). -/
theorem accessOk_of_rom {a : Word} (hrom : 0x8000 ≤ a.toNat) (htop : a ≠ 0xFFFF) : AccessOk a :=
  accessOk_of_ne (by bv_omega) htop

/-- The address below one of ROM can be accessed, unless it is the top of RAM (R36). -/
theorem accessOk_pred_of_rom {a : Word} (hrom : 0x8000 ≤ a.toNat) (hbase : a ≠ 0x8000) : AccessOk (a - 1) := by
  refine accessOk_of_ne ?_ ?_ <;> bv_omega

/-! ## The access primitives (R36 to R39) -/

/-- Settles O7, by what the four primitives answer on either side of the address check. -/
theorem accessRefusedAtRegionTop : Obligations.AccessRefusedAtRegionTop := by
  intro s a v b
  split_ifs with htop
  · have h := (not_accessOk_iff a).2 htop
    exact ⟨memReadByte_stop s h, memReadWord_stop s h, memWriteByte_stop s b h, memWriteWord_stop s v h⟩
  · have h : AccessOk a := not_not.1 fun hn => htop ((not_accessOk_iff a).1 hn)
    exact ⟨⟨_, memReadByte_ok s h⟩, ⟨_, memReadWord_ok s h⟩, ⟨_, memWriteByte_ok s b h⟩, ⟨_, memWriteWord_ok s v h⟩⟩

/-- What an access behind the address check raises. Each of the four primitives is such an access. -/
theorem error_of_guarded_access {α : Type} {s : State} {a : Word} {x : α} {f : Fault}
    (h : (if AccessOk a then .ok x else invalidAccess s a) = .error f) : f = .invalidAddress a s := by
  split_ifs at h
  cases h
  rfl

/-- Settles O10, by the frame of `setByte` and the one error behind the address check. -/
theorem byteWriteEffect : Obligations.ByteWriteEffect := by
  intro s a b
  refine ⟨fun h1 h2 => ?_, fun _ => error_of_guarded_access, fun _ _ => error_of_guarded_access,
    fun _ => error_of_guarded_access, fun _ => error_of_guarded_access⟩
  refine ⟨_, memWriteByte_ok s b (accessOk_of_ne h1 h2), ?_, sameBut_setByte s a b⟩
  rw [State.byteAt_setByte, if_pos rfl]

/-- Settles O8: the reads answer the bytes at the address, and `lh` and `lhu` extend the byte read there. -/
theorem readValueLittleEndian : Obligations.ReadValueLittleEndian := by
  intro s a h1 h2
  have h := accessOk_of_ne h1 h2
  refine ⟨memReadByte_ok s h, ⟨_, memReadWord_ok s h, wordOfBytes_toNat _ _⟩, fun rd rs imm hea => ?_⟩
  subst hea
  exact ⟨exec_lh_ok s rd rs imm h, exec_lhu_ok s rd rs imm h⟩

/-! ## A word in memory (R34, R38) -/

/-- The state a completed word write leaves: the low byte at the address, the high byte at the next (R38). -/
def State.setWord (s : State) (a v : Word) : State := (s.setByte a (lowByte v)).setByte (a + 1) (highByte v)

theorem memWriteWord_eq_setWord (s : State) {a : Word} (v : Word) (h : AccessOk a) :
    memWriteWord s a v = .ok (s.setWord a v) := memWriteWord_ok s v h

/-- A word write completes only at a valid address, and leaves `setWord`. -/
theorem memWriteWord_eq_ok_iff (s t : State) (a v : Word) :
    memWriteWord s a v = .ok t ↔ AccessOk a ∧ t = s.setWord a v := by
  by_cases h : AccessOk a
  · simp [memWriteWord_eq_setWord s v h, h, eq_comm]
  · simp [memWriteWord_stop s v h, h]

@[simp] theorem State.byteAt_setWord_low (s : State) (a v : Word) : (s.setWord a v).byteAt a = lowByte v := by
  rw [State.setWord, State.byteAt_setByte, if_neg (succ_ne_self a).symm, State.byteAt_setByte, if_pos rfl]

@[simp] theorem State.byteAt_setWord_high (s : State) (a v : Word) : (s.setWord a v).byteAt (a + 1) = highByte v := by
  rw [State.setWord, State.byteAt_setByte, if_pos rfl]

theorem sameBut_setWord (s : State) (a v : Word) : SameBut [.byte a, .byte (a + 1)] s (s.setWord a v) :=
  SameBut.trans ((sameBut_setByte s a _).mono (by simp)) ((sameBut_setByte _ (a + 1) _).mono (by simp))

/-- A word written is the word read back. -/
theorem memReadWord_setWord (s : State) {a : Word} (v : Word) (h : AccessOk a) :
    memReadWord (s.setWord a v) a = .ok v := by
  rw [memReadWord_ok _ h, State.byteAt_setWord_low, State.byteAt_setWord_high, wordOfBytes_low_high]

/-- Settles O9, by the bytes and the frame of `setWord`. -/
theorem wordWriteEffect : Obligations.WordWriteEffect := by
  intro s a v h1 h2
  refine ⟨_, memWriteWord_eq_setWord s v (accessOk_of_ne h1 h2), ?_, ?_, sameBut_setWord s a v⟩
  · rw [State.byteAt_setWord_low, lowByte_toNat]
  · rw [State.byteAt_setWord_high, highByte_toNat]

/-- A fetch decodes the word that a word read at `pc` gives, and so has its byte order and its addresses (R34, R36). -/
theorem fetch_of_memReadWord {s : State} {a w : Word} {i : Instr} (hread : memReadWord s a = .ok w)
    (hi : decodeWord w = .ok i) : fetch (s.setPc a) = .ok (i, s.setPc (a + 2)) := by
  by_cases h : AccessOk a
  · rw [memReadWord_ok s h] at hread
    cases hread
    exact fetch_instr (s.setPc a) i h hi
  · rw [memReadWord_stop s h] at hread
    cases hread

/-- Settles O11: the reads and the fetch see the two bytes of `setWord`. -/
theorem wordsAreLittleEndian : Obligations.WordsAreLittleEndian := by
  intro s t a v hwrite
  obtain ⟨h, rfl⟩ := (memWriteWord_eq_ok_iff s t a v).1 hwrite
  have hword := memReadWord_setWord s v h
  refine ⟨?_, fun h1 h2 => ?_, hword, fun i hi => fetch_of_memReadWord hword hi⟩
  · rw [memReadByte_ok _ h, State.byteAt_setWord_low, lowByte]
  · rw [memReadByte_ok _ (accessOk_of_ne h1 h2), State.byteAt_setWord_high, highByte]

/-- Settles O13: no primitive looks at bit 0, so what holds at every valid address holds at an odd one. -/
theorem oddAddressesWork : Obligations.OddAddressesWork := by
  intro s a v _ h1 h2
  have h := accessOk_of_ne h1 h2
  refine ⟨memReadByte_ok s h, memReadWord_ok s h, ⟨_, memWriteByte_ok s _ h, ?_⟩,
    ⟨_, memWriteWord_eq_setWord s v h, s.byteAt_setWord_low a v, s.byteAt_setWord_high a v⟩,
    fun i hi => fetch_of_memReadWord (memReadWord_ok s h) hi⟩
  rw [State.byteAt_setByte, if_pos rfl]

/-! ## Stores to ROM (R40) -/

theorem memReadByte_setByte_self (s : State) {a : Word} (b : Byte) (h : AccessOk a) :
    memReadByte (s.setByte a b) a = .ok b := by
  rw [memReadByte_ok _ h, State.byteAt_setByte, if_pos rfl]

/-- A byte stored is the low byte of the word at its address. -/
theorem memReadWord_setByte_low (s : State) {a : Word} (b : Byte) (h : AccessOk a) :
    memReadWord (s.setByte a b) a = .ok (wordOfBytes b (s.byteAt (a + 1))) := by
  rw [memReadWord_ok _ h, State.byteAt_setByte, State.byteAt_setByte, if_pos rfl, if_neg (succ_ne_self a)]

/-- A byte stored is the high byte of the word at the address below. -/
theorem memReadWord_setByte_high (s : State) {a : Word} (b : Byte) (h : AccessOk a) :
    memReadWord (s.setByte (a + 1) b) a = .ok (wordOfBytes (s.byteAt a) b) := by
  rw [memReadWord_ok _ h, State.byteAt_setByte, State.byteAt_setByte, if_pos rfl, if_neg (succ_ne_self a).symm]

/-- The frame of `push`: `sp` and the two bytes of the slot at the decremented `sp`. -/
theorem sameBut_setSp_setWord (s : State) (v : Word) :
    SameBut [.sp, .byte (s.sp - 2), .byte (s.sp - 1)] s ((s.setSp (s.sp - 2)).setWord (s.sp - 2) v) := by
  have hsecond : s.sp - 2 + 1 = s.sp - 1 := by bv_omega
  have hword := sameBut_setWord (s.setSp (s.sp - 2)) (s.sp - 2) v
  rw [hsecond] at hword
  exact SameBut.trans ((sameBut_setSp s _).mono (by simp)) (hword.mono (by simp))

/-- Settles O12: an address in ROM below `0xFFFF` passes the address check, and behind it `sw` and `push` leave `setWord`
and `sh` leaves `setByte`, whose words the fetch decodes. -/
theorem romIsWritable : Obligations.RomIsWritable := by
  intro s rd rs imm
  refine ⟨fun hrom htop => ⟨?sw, ?sh⟩, fun hrom htop => ?push⟩
  case sw =>
    have h := accessOk_of_rom hrom htop
    have hword := memReadWord_setWord s (s.getReg rd) h
    exact ⟨_, exec_sw_ok s rd rs imm h, sameBut_setWord s _ _, hword, fun i hi => fetch_of_memReadWord hword hi⟩
  case sh =>
    have h := accessOk_of_rom hrom htop
    have hword := memReadWord_setByte_low s (lowByte (s.getReg rd)) h
    refine ⟨_, exec_sh_ok s rd rs imm h, sameBut_setByte s _ _, memReadByte_setByte_self s _ h, hword,
      fun i hi => fetch_of_memReadWord hword hi, fun hbase i hi => ?_⟩
    have hbelow := memReadWord_setByte_high s (lowByte (s.getReg rd)) (accessOk_pred_of_rom hrom hbase)
    have hsucc : effAddr s rs imm - 1 + 2 = effAddr s rs imm + 1 := by bv_omega
    rw [BitVec.sub_add_cancel] at hbelow
    rw [← hsucc]
    exact fetch_of_memReadWord hbelow hi
  case push =>
    have h := accessOk_of_rom hrom htop
    have hword := memReadWord_setWord (s.setSp (s.sp - 2)) (s.getReg rd) h
    refine ⟨_, exec_push_ok s rd h, sameBut_setSp_setWord s _, hword, fun i hi => ?_⟩
    have hfetch := fetch_of_memReadWord hword hi
    rwa [BitVec.sub_add_cancel] at hfetch

end Sys2Proof.Machine

/-! PROOFS of the family 42_control_transfer: what the branches compare, and the targets relative to `pc` (R87, R88). -/

namespace Sys2Proof.Machine

/-! ## Comparisons (R87) -/

section
variable {cond : Word → Word → Bool} {s : State} {rd rs : Reg} {p : Prop} [Decidable p]

/-- A branch that is taken exactly where `p` holds. -/
theorem branch_of_cond_iff (imm : Imm5) (h : cond (s.getReg rd) (s.getReg rs) = true ↔ p) :
    branch cond rd rs imm s = .next (if p then s.setPc (s.pc - 2 + imm.signExtend 16) else s) := by
  simp only [branch, branchTarget, pcThis, sext5, h]

/-- A branch that is not taken exactly where `p` holds. -/
theorem branch_of_cond_iff_not (imm : Imm5) (h : cond (s.getReg rd) (s.getReg rs) = true ↔ ¬ p) :
    branch cond rd rs imm s = .next (if p then s else s.setPc (s.pc - 2 + imm.signExtend 16)) := by
  rw [branch_of_cond_iff imm h, ite_not]

end

theorem condGeSigned_iff (a b : Word) : condGeSigned a b = true ↔ ¬ a.toInt < b.toInt := by
  rw [condGeSigned, decide_eq_true_iff, not_lt]

theorem condGeUnsigned_iff (a b : Word) : condGeUnsigned a b = true ↔ ¬ a.toNat < b.toNat := by
  rw [condGeUnsigned, decide_eq_true_iff, not_lt]

/-- Settles O36: the comparison decides each branch; `bnq`, `bge` and `bgeu` are taken where `beq`, `blt` and `bltu` are
not. -/
theorem branchesCompare : Obligations.BranchesCompare := by
  intro s rd rs imm
  exact ⟨branch_of_cond_iff imm decide_eq_true_iff, branch_of_cond_iff_not imm decide_eq_true_iff,
    branch_of_cond_iff imm decide_eq_true_iff, branch_of_cond_iff_not imm (condGeSigned_iff _ _),
    branch_of_cond_iff imm decide_eq_true_iff, branch_of_cond_iff_not imm (condGeUnsigned_iff _ _)⟩

/-! ## Targets (R88) -/

/-- Adding a sign-extended immediate of any width adds its signed value modulo 2^16. -/
theorem toNat_add_signExtend {n : Nat} (hn : n ≤ 16) (a : Word) (imm : BitVec n) :
    ((a + imm.signExtend 16).toNat : Int) = (a.toNat + imm.toInt) % 65536 := by
  have hsext : (imm.signExtend 16).toInt = imm.toInt := BitVec.toInt_signExtend_of_le hn
  rw [BitVec.toInt_eq_toNat_bmod, Int.bmod_def] at hsext
  rw [BitVec.toNat_add]
  split_ifs at hsext <;> omega

/-- The target of a taken branch and of `jal` as a number: `pc_this` is `pc - 2`. -/
theorem toNat_relativeTarget {n : Nat} (hn : n ≤ 16) (pc : Word) (imm : BitVec n) :
    ((pc - 2 + imm.signExtend 16).toNat : Int) = ((pc.toNat : Int) - 2 + imm.toInt) % 65536 := by
  have hthis : (pc - 2).toNat = (pc.toNat + 65534) % 65536 := by bv_omega
  rw [toNat_add_signExtend hn, hthis]
  omega

/-- A step from a `pc` that cannot be fetched from (R150). -/
theorem step_of_invalid_pc {t : State} (h : t.pc = 0x7FFF ∨ t.pc = 0xFFFF) :
    step t = .fault (.invalidAddress t.pc t) :=
  step_of_fetch_error (fetch_invalid t ((not_accessOk_iff t.pc).2 h))

/-- Settles O37: whatever the comparison, a taken branch leaves the one state of `branchesCompare`, whose `pc` is the
relative target, as it is after `jal`. -/
theorem transferTargetsRelative : Obligations.TransferTargetsRelative := by
  refine ⟨fun s rd rs imm i htaken => ?_, fun s rd imm =>
    ⟨_, rfl, toNat_relativeTarget (by decide) s.pc imm, step_of_invalid_pc⟩⟩
  have hexec : exec i s = .next (s.setPc (s.pc - 2 + imm.signExtend 16)) := by
    obtain ⟨hbeq, hbnq, hblt, hbge, hbltu, hbgeu⟩ := branchesCompare s rd rs imm
    obtain ⟨rfl, h⟩ | ⟨rfl, h⟩ | ⟨rfl, h⟩ | ⟨rfl, h⟩ | ⟨rfl, h⟩ | ⟨rfl, h⟩ := htaken
    · rwa [if_pos h] at hbeq
    · rwa [if_neg h] at hbnq
    · rwa [if_pos h] at hblt
    · rwa [if_neg (not_lt.2 h)] at hbge
    · rwa [if_pos h] at hbltu
    · rwa [if_neg (not_lt.2 h)] at hbgeu
  exact ⟨_, hexec, toNat_relativeTarget (by decide) s.pc imm, step_of_invalid_pc⟩

end Sys2Proof.Machine

/-! PROOFS of the family 43_load_store: the effective address, and loading what was stored (R100, R108). -/

namespace Sys2Proof.Machine

/-! ## The effective address (R100) -/

theorem effAddr_toNat (s : State) (rs : Reg) (imm : Imm5) :
    ((effAddr s rs imm).toNat : Int) = ((s.getReg rs).toNat + imm.toInt) % 65536 :=
  toNat_add_signExtend (by decide) (s.getReg rs) imm

theorem imm5_toInt_range (imm : Imm5) : -16 ≤ imm.toInt ∧ imm.toInt ≤ 15 :=
  ⟨BitVec.le_toInt imm, Int.le_of_lt_add_one (BitVec.toInt_lt (x := imm))⟩

/-- The absolute mode reaches the 16 lowest and the 16 highest addresses. -/
theorem effAddr_x0_range (s : State) (imm : Imm5) :
    (effAddr s .x0 imm).toNat ≤ 0x000F ∨ 0xFFF0 ≤ (effAddr s .x0 imm).toNat := by
  have haddr := effAddr_toNat s .x0 imm
  have hrange := imm5_toInt_range imm
  have hbase : (s.getReg .x0).toNat = 0 := rfl
  omega

/-! ## Completed loads and stores -/

/-- A byte write completes only at a valid address, and leaves `setByte`. -/
theorem memWriteByte_eq_ok_iff (s t : State) (a : Word) (b : Byte) :
    memWriteByte s a b = .ok t ↔ AccessOk a ∧ t = s.setByte a b := by
  by_cases h : AccessOk a
  · simp [memWriteByte_ok s b h, h, eq_comm]
  · simp [memWriteByte_stop s b h, h]

/-- An access whose result is the next state completed with that state. -/
theorem ok_of_orStop_next {x : Except Fault State} {t : State} (h : orStop x .next = .next t) : x = .ok t := by
  obtain ⟨u, hx, hu⟩ := orStop_next h
  cases hu
  exact hx

section
variable {s t : State} {rd rs : Reg} {imm : Imm5} {i : Instr}

/-- A store that completes writes no register. -/
theorem regs_of_store_next (hi : i ∈ [Instr.sh rd rs imm, .sw rd rs imm]) (h : exec i s = .next t) :
    t.regs = s.regs := by
  simp only [List.mem_cons, List.not_mem_nil, or_false] at hi
  rcases hi with rfl | rfl
  · obtain ⟨-, rfl⟩ := (memWriteByte_eq_ok_iff _ _ _ _).1 (ok_of_orStop_next h)
    rfl
  · obtain ⟨-, rfl⟩ := (memWriteWord_eq_ok_iff _ _ _ _).1 (ok_of_orStop_next h)
    rfl

/-- A load that completes writes its destination and nothing else. -/
theorem setReg_of_load_next (hi : i ∈ [Instr.lh rd rs imm, .lhu rd rs imm, .lw rd rs imm])
    (h : exec i s = .next t) : ∃ v, t = s.setReg rd v := by
  simp only [List.mem_cons, List.not_mem_nil, or_false] at hi
  obtain rfl | rfl | rfl := hi <;>
  · obtain ⟨_, -, hload⟩ := orStop_next h
    cases hload
    exact ⟨_, rfl⟩

end

/-- Settles O40: the address by the arithmetic of a sign-extended offset, the base by what a completed store or load
writes. -/
theorem effectiveAddress : Obligations.EffectiveAddress := by
  intro s rd rs imm
  refine ⟨effAddr_toNat s rs imm, imm5_toInt_range imm, ?x0, fun i hi t h => ?store, fun hne i hi t h => ?load⟩
  case x0 =>
    rintro rfl
    exact effAddr_x0_range s imm
  case store =>
    rw [State.getReg, regs_of_store_next hi h, State.getReg]
  case load =>
    obtain ⟨v, rfl⟩ := setReg_of_load_next hi h
    exact State.getReg_setReg_ne s rd rs v hne

/-! ## Loading what was stored (R108) -/

section
variable {s : State} {rs : Reg} {imm : Imm5}

/-- `lw` writes the word a word read at its address gives. -/
theorem exec_lw_of_read {w : Word} (rd : Reg) (h : memReadWord s (effAddr s rs imm) = .ok w) :
    exec (.lw rd rs imm) s = .next (s.setReg rd w) := by
  rw [exec, execLw, h, orStop_ok]

/-- `lh` writes the byte a byte read at its address gives, sign-extended. -/
theorem exec_lh_of_read {b : Byte} (rd : Reg) (h : memReadByte s (effAddr s rs imm) = .ok b) :
    exec (.lh rd rs imm) s = .next (s.setReg rd (sext8 b)) := by
  rw [exec, execLh, loadByte, h, orStop_ok]

/-- `lw` at the address a word was written to loads that word. -/
theorem exec_lw_setWord (rd : Reg) (v : Word) (h : AccessOk (effAddr s rs imm)) :
    exec (.lw rd rs imm) (s.setWord (effAddr s rs imm) v) =
      .next ((s.setWord (effAddr s rs imm) v).setReg rd v) :=
  exec_lw_of_read rd (memReadWord_setWord s v h)

/-- `lh` at the address a byte was written to loads that byte. -/
theorem exec_lh_setByte (rd : Reg) (b : Byte) (h : AccessOk (effAddr s rs imm)) :
    exec (.lh rd rs imm) (s.setByte (effAddr s rs imm) b) =
      .next ((s.setByte (effAddr s rs imm) b).setReg rd (sext8 b)) :=
  exec_lh_of_read rd (memReadByte_setByte_self s b h)

end

/-- The part of a word above its low byte is its high byte. -/
theorem wordOfBytes_toNat_div (lo hi : Byte) : (wordOfBytes lo hi).toNat / 256 = hi.toNat := by
  have hlo := lo.isLt
  rw [wordOfBytes_toNat]
  omega

/-- Settles O43: a store moves no base register, so the load finds the stored word or byte at the same address; the byte
above one that is stored is the same in both word reads. -/
theorem storeThenLoad : Obligations.StoreThenLoad := by
  intro s rd rd2 rs imm h1 h2
  have h := accessOk_of_ne h1 h2
  refine ⟨⟨_, _, exec_sw_ok s rd rs imm h, exec_lw_setWord rd2 _ h, (writesReg_setReg rd2 _ _).1⟩,
    ⟨_, _, _, _, exec_sh_ok s rd rs imm h, exec_lh_setByte rd2 _ h, (writesReg_setReg rd2 _ _).1,
      memReadWord_ok s h, memReadWord_setByte_low s _ h, ?_⟩⟩
  rw [wordOfBytes_toNat_div, wordOfBytes_toNat_div]

end Sys2Proof.Machine

/-! PROOFS of the family 44_load_immediate: what `lil` and `lih` write, and the field their immediate is (R110). -/

namespace Sys2Proof.Machine

/-! ## The values written (R111, R112) -/

theorem zext8_toNat (b : BitVec 8) : (zext8 b).toNat = b.toNat := BitVec.toNat_setWidth_of_le (by decide)

/-- The immediate placed high is the word whose low byte is zero. -/
theorem highPlaced_toNat (imm : Imm8) : (highPlaced imm).toNat = 256 * imm.toNat := wordOfBytes_toNat 0 imm

/-! ## The unsigned 8-bit immediate of a decoded word (R51) -/

/-- No instruction of the R class has an immediate. -/
theorem writtenImm_of_decodeR {f : Nat} {rd rs : Reg} {i : Instr} (h : decodeR f rd rs = some i) :
    i.writtenImm = none := by
  unfold decodeR at h
  split at h <;> cases h <;> rfl

/-- No instruction of the C1 class has an immediate. -/
theorem writtenImm_of_decodeC1 {f : Nat} {rd : Reg} {i : Instr} (h : decodeC1 f rd = some i) :
    i.writtenImm = none := by
  unfold decodeC1 at h
  split at h <;> cases h <;> rfl

/-- No instruction of the C2 class has an immediate. -/
theorem writtenImm_of_decodeC2 {f : Nat} {i : Instr} (h : decodeC2 f = some i) : i.writtenImm = none := by
  unfold decodeC2 at h
  split at h <;> cases h <;> rfl

/-- An unsigned 8-bit immediate comes from `imm8` of the decoded word: of the classes of R54, only the opcodes of `lil` and
`lih` give one. -/
theorem unsigned8_eq_imm8Field {w : Word} {i : Instr} {v : Int} (h : decodeFields w = some i)
    (himm : i.writtenImm = some (.unsigned8, v)) : v = (imm8Field w).toNat := by
  unfold decodeFields at h
  split at h
  case h_1 => cases (writtenImm_of_decodeR h).symm.trans himm
  case h_17 | h_18 =>
    cases h
    cases himm
    rfl
  case h_19 => cases (writtenImm_of_decodeC1 h).symm.trans himm
  case h_20 => cases (writtenImm_of_decodeC2 h).symm.trans himm
  case h_21 =>
    split_ifs at h
    cases h
    cases himm
  all_goals
    cases h
    cases himm

/-- Settles O35: each writes a value made from the immediate alone, and the immediate is the high byte of the word. -/
theorem loadImmediatesOverwrite : Obligations.LoadImmediatesOverwrite := by
  refine ⟨fun s rd imm => ⟨⟨_, _, rfl, writesReg_setReg rd _ s, zext8_toNat imm⟩,
    ⟨_, _, rfl, writesReg_setReg rd _ s, highPlaced_toNat imm⟩⟩, fun w rd imm h => ?_⟩
  have hfield : (imm.toNat : Int) = (imm8Field w).toNat := by
    obtain h | h := h <;> exact unsigned8_eq_imm8Field ((decodeWord_ok_iff w _).1 h).2 rfl
  exact (Int.ofNat_inj.1 hfield).trans (highByte_toNat w)

end Sys2Proof.Machine

/-! PROOFS of the family 60_exceptions: the stops of the fetch, trap entry and trap return (R150, R153, R155, R157,
R158). -/

namespace Sys2Proof.Machine

/-! ## The stops of the fetch (R150, R153) -/

/-- Settles O22: no fetch can start at the two addresses; adding 2 keeps an even address even, and both are odd. -/
theorem fetchAtRegionTopStops : Obligations.FetchAtRegionTopStops := by
  refine ⟨fun _ => step_of_invalid_pc, fun a heven => ⟨?_, ?_⟩, rfl, rfl⟩
  · bv_omega
  · bv_omega

/-- A step that fetches the word `0x0000` (R153). -/
theorem step_of_zero_word {s : State} (h : AccessOk s.pc) (hlo : s.byteAt s.pc = 0x00)
    (hhi : s.byteAt (s.pc + 1) = 0x00) : step s = .fault (.debugInterrupt s) := by
  have hword : wordOfBytes (s.byteAt s.pc) (s.byteAt (s.pc + 1)) = 0 := by
    rw [hlo, hhi]
    rfl
  exact step_of_fetch_error (fetch_zero s h hword)

/-- An access behind the address check, with nothing after it that can stop, stops only with `InvalidAddress`. -/
theorem fault_of_guarded_access {α : Type} {s : State} {a : Word} {x : α} {go : α → Result} {f : Fault}
    (h : orStop (if AccessOk a then .ok x else invalidAccess s a) go = .fault f) (hgo : ∀ v, go v ≠ .fault f) :
    f = .invalidAddress a s := by
  obtain haccess | ⟨v, -, hv⟩ := orStop_fault h
  · exact error_of_guarded_access haccess
  · exact absurd hv (hgo v)

/-- Execution stops only with `InvalidAddress`: the seven instructions that access memory make one access and then
complete, and every other instruction completes (R146). -/
theorem invalidAddress_of_exec_fault {i : Instr} {s : State} {f : Fault} (h : exec i s = .fault f) :
    ∃ a u, f = .invalidAddress a u := by
  cases i with
  | lh | lhu | lw | sh | sw | push | pop =>
    refine ⟨_, _, fault_of_guarded_access h fun v hv => ?_⟩
    cases hv
  | _ => cases h

/-- Settles O23: the fetch of the zero word stops the step, and execution stops only with `InvalidAddress`. -/
theorem zeroWordStops : Obligations.ZeroWordStops := by
  refine ⟨fun s h1 h2 => step_of_zero_word (accessOk_of_ne h1 h2), fun i s t h => ?_⟩
  obtain ⟨a, u, hf⟩ := invalidAddress_of_exec_fault h
  cases hf

/-! ## Trap entry (R155, R158) -/

/-- The frame of trap entry. -/
theorem sameBut_enterTrap (s : State) : SameBut [.ppc, .ppsr, .psr, .pc] s (enterTrap s) := by
  intro p hp
  cases p with
  | ppc | ppsr | psr | pc => simp at hp
  | _ => rfl

/-- A step that fetches the word `0xFFFF` enters the trap, with `pc` advanced (R58, R155). -/
theorem step_of_trap_word {s : State} (h : AccessOk s.pc) (hlo : s.byteAt s.pc = 0xFF)
    (hhi : s.byteAt (s.pc + 1) = 0xFF) : step s = .next (enterTrap (s.setPc (s.pc + 2))) := by
  have hword : decodeWord (wordOfBytes (s.byteAt s.pc) (s.byteAt (s.pc + 1))) = .ok .trap := by
    rw [hlo, hhi]
    rfl
  exact step_of_fetch_ok (fetch_instr s .trap h hword)

/-- Settles O50, by the state trap entry leaves and its frame. -/
theorem trapEntry : Obligations.TrapEntry := by
  refine ⟨fun s => ⟨_, rfl, rfl, rfl, rfl, rfl, sameBut_enterTrap s⟩, fun s h1 h2 hlo hhi => ?_⟩
  exact ⟨_, step_of_trap_word (accessOk_of_ne h1 h2) hlo hhi, rfl, rfl, rfl, rfl⟩

/-- Settles O52: trap entry moves `pc` to `0x0000` and no byte of memory, so the next step fetches the zero word there. -/
theorem emptyTrapHandlerStops : Obligations.EmptyTrapHandlerStops := by
  intro s h1 h2 hlo hhi hvecLo hvecHi
  have hentry := step_of_trap_word (accessOk_of_ne h1 h2) hlo hhi
  have hvalid : AccessOk trapVector := by decide
  exact ⟨_, hentry, step_of_zero_word hvalid hvecLo hvecHi, rfl, rfl, rfl, rfl⟩

/-! ## Trap return (R157) -/

/-- The frame of trap return. -/
theorem sameBut_returnFromTrap (s : State) : SameBut [.pc, .psr] s (returnFromTrap s) := by
  intro p hp
  cases p with
  | pc | psr => simp at hp
  | _ => rfl

/-- What `rfi` restores is what the saved registers hold. -/
theorem pc_psr_of_exec_rfi {u v : State} (h : exec .rfi u = .next v) : v.pc = u.ppc ∧ v.psr = u.ppsr := by
  cases h
  exact ⟨rfl, rfl⟩

/-- Settles O51: `rfi` restores the saved registers, whether `trap` or `wppc` and `wppsr` wrote them. -/
theorem trapReturn : Obligations.TrapReturn := by
  refine ⟨fun s => ⟨_, rfl, rfl, rfl, sameBut_returnFromTrap s⟩, fun s t u v ht hppc hppsr hv => ?_,
    fun s t u v r q ht hu hv => ?_⟩
  · cases ht
    obtain ⟨hpc, hpsr⟩ := pc_psr_of_exec_rfi hv
    exact ⟨hpc.trans hppc, hpsr.trans hppsr⟩
  · cases ht
    cases hu
    exact pc_psr_of_exec_rfi hv

end Sys2Proof.Machine

/-! PROOFS of the family other: the encoding (R51 to R65); what an instruction writes, where it stops, what a step and a
run keep (R12 to R33, R143 to R153, R182); the results of single instructions (R70 to R138). -/

namespace Sys2Proof.Machine

/-! ## The decoder by class (R54, R56) -/

/-- The fields of the zero word select no instruction, so the zero test of R54 hides none. -/
theorem decodeWord_ok_iff_decodeFields (w : Word) (i : Instr) : decodeWord w = .ok i ↔ decodeFields w = some i := by
  rw [decodeWord_ok_iff]
  refine ⟨And.right, fun h => ⟨?_, h⟩⟩
  rintro rfl
  cases h

section
variable {w : Word}

theorem decodeFields_R (h : opcodeField w = 0) :
    decodeFields w = decodeR (funcField w).toNat (Reg.ofBits (rdField w)) (Reg.ofBits (rsField w)) := by
  rw [decodeFields, h]
  rfl

theorem decodeFields_C1 (h : opcodeField w = 18) :
    decodeFields w = decodeC1 (funcField w).toNat (Reg.ofBits (rdField w)) := by
  rw [decodeFields, h]
  rfl

theorem decodeFields_C2 (h : opcodeField w = 19) : decodeFields w = decodeC2 (funcField w).toNat := by
  rw [decodeFields, h]
  rfl

/-- Above the opcodes of the classes only the whole word `0xFFFF` is an instruction (R58). -/
theorem decodeFields_of_opcode_ge (h : 20 ≤ (opcodeField w).toNat) :
    decodeFields w = if w = 0xFFFF then some .trap else none := by
  obtain ⟨k, hk⟩ : ∃ k, (opcodeField w).toNat = k + 20 := ⟨_, (Nat.sub_add_cancel h).symm⟩
  rw [decodeFields, hk]
  rfl

end

/-! ## Decoding what was encoded (R65) -/

theorem decodeFields_packRI_R (f : BitVec 5) (rs rd : Reg) :
    decodeFields (packRI f rs rd 0) = decodeR f.toNat rd rs := by
  simp [decodeFields_R]

theorem decodeFields_packC1 (f : BitVec 5) (rd : Reg) : decodeFields (packC1 f rd) = decodeC1 f.toNat rd := by
  simp [packC1, decodeFields_C1]

theorem decodeFields_packC2 (f : BitVec 5) : decodeFields (packC2 f) = decodeC2 f.toNat := by
  simp [packC2, decodeFields_C2]

/-- The fields of a canonical word select its instruction: by `func` in the classes R, C1 and C2, by `opcode` in the
others, whose operands are the packed fields. -/
theorem decodeFields_encode (i : Instr) : decodeFields (encode i) = some i := by
  cases i with
  | mov | add | sub | and | or | xor | sll | srl | sra => exact decodeFields_packRI_R _ _ _
  | push | pop | rpc | rsp | rpsr | rtlr | rthr | rppc | rppsr | wsp | wpsr | wtlr | wthr | wppc | wppsr =>
    exact decodeFields_packC1 _ _
  | rfi | rtr | wtr => exact decodeFields_packC2 _
  | trap => rfl
  | _ => simp [encode, decodeFields]

/-- Settles O15: the word by its fields; its two bytes make the word again. -/
theorem decodeOfEncode : Obligations.DecodeOfEncode := by
  intro i rest
  have hword : decodeWord (encode i) = .ok i := (decodeWord_ok_iff_decodeFields _ i).2 (decodeFields_encode i)
  refine ⟨hword, ?_⟩
  simp only [encodeBytes, List.cons_append, List.nil_append, decode, wordOfBytes_low_high, hword]

/-! ## Encoding what was decoded (R60, R65; decision D3) -/

theorem encode_of_decodeR {f : Nat} {rd rs : Reg} {i : Instr} (h : decodeR f rd rs = some i) :
    encode i = packRI (BitVec.ofNat 5 f) rs rd 0 := by
  unfold decodeR at h
  split at h <;> cases h <;> rfl

theorem encode_of_decodeC1 {f : Nat} {rd : Reg} {i : Instr} (h : decodeC1 f rd = some i) :
    encode i = packC1 (BitVec.ofNat 5 f) rd := by
  unfold decodeC1 at h
  split at h <;> cases h <;> rfl

theorem encode_of_decodeC2 {f : Nat} {i : Instr} (h : decodeC2 f = some i) :
    encode i = packC2 (BitVec.ofNat 5 f) := by
  unfold decodeC2 at h
  split at h <;> cases h <;> rfl

/-- Clearing bits 10:8 keeps the fields the C1 class reads. -/
theorem clear_rs (w : Word) :
    w &&& 0xF8FF = packRI (funcField w) .x0 (Reg.ofBits (rdField w)) (opcodeField w) := by
  apply BitVec.eq_of_getLsbD_eq
  intro i hi
  rw [BitVec.getLsbD_and, getLsbD_packRI, Reg.bits_ofBits]
  interval_cases i <;> simp [opcodeField, funcField, rdField, Reg.bits]

section
variable {w : Word} {op : BitVec 5}

/-- A word with the opcode `op`, packed again in the R and I5 format. -/
theorem packRI_of_opcode (h : (opcodeField w).toNat = op.toNat) :
    packRI (funcField w) (Reg.ofBits (rsField w)) (Reg.ofBits (rdField w)) op = w := by
  rw [← BitVec.eq_of_toNat_eq h, word_fields]

/-- A word with the opcode `op`, packed again in the I8 format. -/
theorem packI8_of_opcode (h : (opcodeField w).toNat = op.toNat) :
    packI8 (imm8Field w) (Reg.ofBits (rdField w)) op = w := by
  rw [← BitVec.eq_of_toNat_eq h, word_fields_I8]

end

/-- Outside C1 and C2 every field of a word is an operand, an opcode or a func, and the encoder puts it back. -/
theorem encode_of_decodeFields {w : Word} {i : Instr} (h : decodeFields w = some i) (h1 : opcodeField w ≠ 18)
    (h2 : opcodeField w ≠ 19) : encode i = w := by
  unfold decodeFields at h
  split at h
  case h_1 hop =>
    rw [encode_of_decodeR h, BitVec.ofNat_toNat, BitVec.setWidth_eq]
    exact packRI_of_opcode hop
  case h_16 hop | h_17 hop | h_18 hop =>
    cases h
    exact packI8_of_opcode hop
  case h_19 hop => exact absurd (BitVec.eq_of_toNat_eq hop) h1
  case h_20 hop => exact absurd (BitVec.eq_of_toNat_eq hop) h2
  case h_21 =>
    split_ifs at h with hw
    cases h
    exact hw.symm
  all_goals
    rename_i hop
    cases h
    exact packRI_of_opcode hop

/-- Settles O16: C1 and C2 put back the fields they read and zeros for the others; the other classes put back every
field. -/
theorem encodeOfDecode : Obligations.EncodeOfDecode := by
  intro w i h
  rw [decodeWord_ok_iff_decodeFields] at h
  split_ifs with h1 h2
  · rw [decodeFields_C1 h1] at h
    rw [encode_of_decodeC1 h, BitVec.ofNat_toNat, BitVec.setWidth_eq, clear_rs, h1, packC1]
  · rw [decodeFields_C2 h2] at h
    rw [encode_of_decodeC2 h, BitVec.ofNat_toNat, BitVec.setWidth_eq, mask_func_opcode, h2, packC2]
  · exact encode_of_decodeFields h h1 h2

/-- Two words equal outside bits 10:8 agree in the three fields the C1 class reads. -/
theorem fields_of_clear_rs_eq {w w' : Word} (h : w' &&& 0xF8FF = w &&& 0xF8FF) :
    opcodeField w' = opcodeField w ∧ funcField w' = funcField w ∧ rdField w' = rdField w := by
  rw [clear_rs, clear_rs] at h
  have hop := congrArg opcodeField h
  have hfunc := congrArg funcField h
  have hrd := congrArg rdField h
  simp only [opcodeField_packRI, funcField_packRI, rdField_packRI, Reg.bits_ofBits] at hop hfunc hrd
  exact ⟨hop, hfunc, hrd⟩

/-- Two words equal outside bits 10:5 agree in the two fields the C2 class reads. -/
theorem fields_of_clear_rs_rd_eq {w w' : Word} (h : w' &&& 0xF81F = w &&& 0xF81F) :
    opcodeField w' = opcodeField w ∧ funcField w' = funcField w := by
  rw [mask_func_opcode, mask_func_opcode] at h
  have hop := congrArg opcodeField h
  have hfunc := congrArg funcField h
  rw [opcodeField_packRI, opcodeField_packRI] at hop
  rw [funcField_packRI, funcField_packRI] at hfunc
  exact ⟨hop, hfunc⟩

/-- Settles O17: the decoder reads the same fields of both words. -/
theorem ignoredBitsAreIgnored : Obligations.IgnoredBitsAreIgnored := by
  intro w w' i h
  rw [decodeWord_ok_iff_decodeFields] at h ⊢
  refine ⟨fun hop heq => ?_, fun hop heq => ?_⟩
  · obtain ⟨hop', hfunc, hrd⟩ := fields_of_clear_rs_eq heq
    rw [decodeFields_C1 (hop'.trans hop), hfunc, hrd, ← decodeFields_C1 hop, h]
  · obtain ⟨hop', hfunc⟩ := fields_of_clear_rs_rd_eq heq
    rw [decodeFields_C2 (hop'.trans hop), hfunc, ← decodeFields_C2 hop, h]

/-! ## The illegal words (R59) -/

/-- The table of R59 over the opcode and func numbers of a word; the zero word is in its first row. -/
theorem decodeFields_none_iff (w : Word) :
    decodeFields w = none ↔
      (w.toNat % 32 = 0 ∧ (w.toNat / 2048 = 0 ∨ 10 ≤ w.toNat / 2048)) ∨
      (w.toNat % 32 = 18 ∧ (w.toNat / 2048 = 0 ∨ 16 ≤ w.toNat / 2048)) ∨
      (w.toNat % 32 = 19 ∧ (w.toNat / 2048 = 0 ∨ 4 ≤ w.toNat / 2048)) ∨
      (20 ≤ w.toNat % 32 ∧ w.toNat % 32 ≤ 30) ∨
      (w.toNat % 32 = 31 ∧ w ≠ 0xFFFF) := by
  by_cases hop : w.toNat % 32 < 20
  · simp only [decodeFields, opcodeField_toNat, funcField_toNat]
    interval_cases w.toNat % 32 <;> simp [decodeR_none_iff, decodeC1_none_iff, decodeC2_none_iff]
  · rw [decodeFields_of_opcode_ge (by rw [opcodeField_toNat]; omega)]
    by_cases hw : w = 0xFFFF
    · subst hw
      decide
    · rw [if_neg hw]
      simp only [hw, ne_eq, not_false_eq_true, and_true, true_iff]
      omega

theorem decodeWord_unknown_iff (w : Word) :
    decodeWord w = .error (.unknown w) ↔ w ≠ 0 ∧ decodeFields w = none := by
  unfold decodeWord
  split_ifs with h0
  · simp [h0]
  · cases decodeFields w with
    | none => exact ⟨fun _ => ⟨h0, rfl⟩, fun _ => rfl⟩
    | some i => simp

/-- Settles O18, by the words whose fields select nothing. -/
theorem illegalWordsExactly : Obligations.IllegalWordsExactly := by
  intro w
  rw [decodeWord_unknown_iff, decodeFields_none_iff]

/-! ## The opcode map (R56) -/

theorem rowNumber_of_decodeR {f : Nat} {rd rs : Reg} {i : Instr} (h : decodeR f rd rs = some i) :
    i.rowNumber = f ∧ 1 ≤ f ∧ f ≤ 9 := by
  unfold decodeR at h
  split at h <;> cases h <;> simp [Instr.rowNumber]

theorem rowNumber_of_decodeC1 {f : Nat} {rd : Reg} {i : Instr} (h : decodeC1 f rd = some i) :
    i.rowNumber = f + 26 ∧ 1 ≤ f ∧ f ≤ 15 := by
  unfold decodeC1 at h
  split at h <;> cases h <;> simp [Instr.rowNumber]

theorem rowNumber_of_decodeC2 {f : Nat} {i : Instr} (h : decodeC2 f = some i) :
    i.rowNumber = f + 41 ∧ 1 ≤ f ∧ f ≤ 3 := by
  unfold decodeC2 at h
  split at h <;> cases h <;> simp [Instr.rowNumber]

/-- Row `n` of R56 in the numbers of a word: the func of the rows 1 to 9 and 27 to 44 and the opcode of the rows 10 to 26
follow the row number. -/
def InRow (w : Word) (n : Nat) : Prop :=
  (w.toNat % 32 = 0 ∧ w.toNat / 2048 = n ∧ 1 ≤ n ∧ n ≤ 9) ∨
  (w.toNat % 32 + 9 = n ∧ 10 ≤ n ∧ n ≤ 26) ∨
  (w.toNat % 32 = 18 ∧ w.toNat / 2048 + 26 = n ∧ 27 ≤ n ∧ n ≤ 41) ∨
  (w.toNat % 32 = 19 ∧ w.toNat / 2048 + 41 = n ∧ 42 ≤ n ∧ n ≤ 44) ∨
  (w = 0xFFFF ∧ n = 45)

/-- A decoded word is in the row of its instruction. -/
theorem inRow_of_decodeFields {w : Word} {i : Instr} (h : decodeFields w = some i) : InRow w i.rowNumber := by
  rw [InRow, ← opcodeField_toNat, ← funcField_toNat]
  unfold decodeFields at h
  split at h
  case h_1 hop =>
    have hrow := rowNumber_of_decodeR h
    omega
  case h_19 hop =>
    have hrow := rowNumber_of_decodeC1 h
    omega
  case h_20 hop =>
    have hrow := rowNumber_of_decodeC2 h
    omega
  case h_21 =>
    split_ifs at h with hw
    cases h
    simp [hw, Instr.rowNumber]
  all_goals
    rename_i hop
    cases h
    simp [hop, Instr.rowNumber]

/-- A word is in one row at most. -/
theorem InRow.unique {w : Word} {m n : Nat} (hm : InRow w m) (hn : InRow w n) : m = n := by
  unfold InRow at hm hn
  bv_omega

/-- A word in a row is legal. -/
theorem InRow.decodeFields_ne_none {w : Word} {n : Nat} (h : InRow w n) : decodeFields w ≠ none := by
  rw [Ne, decodeFields_none_iff]
  unfold InRow at h
  bv_omega

theorem exists_decodeWord_rowNumber_iff (w : Word) (n : Nat) :
    (∃ i, decodeWord w = .ok i ∧ i.rowNumber = n) ↔ InRow w n := by
  simp only [decodeWord_ok_iff_decodeFields]
  constructor
  · rintro ⟨i, hi, rfl⟩
    exact inRow_of_decodeFields hi
  · intro h
    obtain ⟨i, hi⟩ := Option.ne_none_iff_exists'.1 h.decodeFields_ne_none
    exact ⟨i, hi, (inRow_of_decodeFields hi).unique h⟩

/-! What a row covers, by its mask, in the numbers of a word. -/

theorem packRI_inj_func_opcode {f f' op op' : BitVec 5} :
    packRI f .x0 .x0 op = packRI f' .x0 .x0 op' ↔ f = f' ∧ op = op' := by
  refine ⟨fun h => ?_, fun ⟨hf, ho⟩ => by rw [hf, ho]⟩
  have hf := congrArg funcField h
  have ho := congrArg opcodeField h
  rw [funcField_packRI, funcField_packRI] at hf
  rw [opcodeField_packRI, opcodeField_packRI] at ho
  exact ⟨hf, ho⟩

theorem covers_iff (row : OpRow) (w : Word) : row.covers w = true ↔ w ≠ 0 ∧ w &&& row.mask = row.bits := by
  simp [OpRow.covers]

section
variable {row : OpRow} {f op : BitVec 5}

theorem covers_func_iff (hmask : row.mask = 0xF81F) (hbits : row.bits = packRI f .x0 .x0 op) (w : Word) :
    row.covers w = true ↔ w ≠ 0 ∧ w.toNat / 2048 = f.toNat ∧ w.toNat % 32 = op.toNat := by
  rw [covers_iff, hmask, hbits, mask_func_opcode, packRI_inj_func_opcode, ← BitVec.toNat_inj (x := funcField w),
    ← BitVec.toNat_inj (x := opcodeField w), funcField_toNat, opcodeField_toNat]

theorem covers_opcode_iff (hmask : row.mask = 0x001F) (hbits : row.bits = packRI 0 .x0 .x0 op) (w : Word) :
    row.covers w = true ↔ w ≠ 0 ∧ w.toNat % 32 = op.toNat := by
  rw [covers_iff, hmask, hbits, mask_opcode, packRI_inj_func_opcode, ← BitVec.toNat_inj (x := opcodeField w),
    opcodeField_toNat]
  simp

theorem covers_word_iff (hmask : row.mask = 0xFFFF) (hbits : row.bits = 0xFFFF) (w : Word) :
    row.covers w = true ↔ w = 0xFFFF := by
  have hall : w &&& 0xFFFF = w := BitVec.and_allOnes
  rw [covers_iff, hmask, hbits, hall]
  exact ⟨And.right, fun h => ⟨by rw [h]; decide, h⟩⟩

end

/-! The printed match and mask words of the three parts of the map, by the row's number. -/

theorem opcodeMapR_form : ∀ row ∈ opcodeMapR, row.mask = 0xF81F ∧
    row.bits = packRI (BitVec.ofNat 5 row.number) .x0 .x0 0 ∧ 1 ≤ row.number ∧ row.number ≤ 9 := by
  decide

theorem opcodeMapI_form : ∀ row ∈ opcodeMapI, row.mask = 0x001F ∧
    row.bits = packRI 0 .x0 .x0 (BitVec.ofNat 5 (row.number - 9)) ∧ 10 ≤ row.number ∧ row.number ≤ 26 := by
  decide

theorem opcodeMapC_form : ∀ row ∈ opcodeMapC,
    (row.mask = 0xF81F ∧ row.bits = packRI (BitVec.ofNat 5 (row.number - 26)) .x0 .x0 18 ∧
      27 ≤ row.number ∧ row.number ≤ 41) ∨
    (row.mask = 0xF81F ∧ row.bits = packRI (BitVec.ofNat 5 (row.number - 41)) .x0 .x0 19 ∧
      42 ≤ row.number ∧ row.number ≤ 44) ∨
    (row.mask = 0xFFFF ∧ row.bits = 0xFFFF ∧ row.number = 45) := by
  decide

/-- The 45 printed rows cover the words of their row numbers. -/
theorem covers_iff_inRow {row : OpRow} (hrow : row ∈ opcodeMap) (w : Word) :
    row.covers w = true ↔ InRow w row.number := by
  rw [InRow]
  simp only [opcodeMap, List.mem_append] at hrow
  obtain (hR | hI) | hC := hrow
  · obtain ⟨hmask, hbits, hlo, hhi⟩ := opcodeMapR_form row hR
    rw [covers_func_iff hmask hbits, BitVec.toNat_ofNat]
    bv_omega
  · obtain ⟨hmask, hbits, hlo, hhi⟩ := opcodeMapI_form row hI
    rw [covers_opcode_iff hmask hbits, BitVec.toNat_ofNat]
    bv_omega
  · obtain ⟨hmask, hbits, hlo, hhi⟩ | ⟨hmask, hbits, hlo, hhi⟩ | ⟨hmask, hbits, hnum⟩ := opcodeMapC_form row hC
    · rw [covers_func_iff hmask hbits, BitVec.toNat_ofNat]
      bv_omega
    · rw [covers_func_iff hmask hbits, BitVec.toNat_ofNat]
      bv_omega
    · rw [covers_word_iff hmask hbits]
      bv_omega

/-- Settles O19: match and mask, and the decoder, both say which row a word is in. -/
theorem decoderMatchesOpcodeMap : Obligations.DecoderMatchesOpcodeMap := by
  intro w row hrow
  rw [covers_iff_inRow hrow, exists_decodeWord_rowNumber_iff]

/-! ## What an instruction writes (R12, R15, R21, R30) -/

/-- A branch writes `pc` and nothing else; not taken, `pc` is written with itself. -/
theorem setPc_of_branch_next {cond : Word → Word → Bool} {rd rs : Reg} {imm : Imm5} {s t : State}
    (h : branch cond rd rs imm s = .next t) : ∃ v, t = s.setPc v := by
  cases h
  split_ifs
  · exact ⟨_, rfl⟩
  · exact ⟨s.pc, rfl⟩

theorem sameBut_jump (s : State) (rd : Reg) (link target : Word) :
    SameBut [.reg rd, .pc] s ((s.setReg rd link).setPc target) :=
  ((sameBut_setReg s rd link).mono (by simp)).trans ((sameBut_setPc _ target).mono (by simp))

/-- Settles O53: each instruction that completes made the updates of its meaning, and each update has its frame. -/
theorem instructionFrames : Obligations.InstructionFrames := by
  intro i s t h
  cases i with
  | lh | lhu | lw =>
    obtain ⟨_, -, hload⟩ := orStop_next h
    cases hload
    exact sameBut_setReg s _ _
  | sh =>
    obtain ⟨-, rfl⟩ := (memWriteByte_eq_ok_iff _ _ _ _).1 (ok_of_orStop_next h)
    exact sameBut_setByte s _ _
  | sw =>
    obtain ⟨-, rfl⟩ := (memWriteWord_eq_ok_iff _ _ _ _).1 (ok_of_orStop_next h)
    exact sameBut_setWord s _ _
  | push =>
    obtain ⟨-, rfl⟩ := (memWriteWord_eq_ok_iff _ _ _ _).1 (ok_of_orStop_next h)
    exact sameBut_setSp_setWord s _
  | pop rd =>
    obtain ⟨w, -, hpop⟩ := orStop_next h
    cases hpop
    exact ((sameBut_setReg s rd w).mono (by simp [writtenParts])).trans
      ((sameBut_setSp _ _).mono (by simp [writtenParts]))
  | beq | bnq | blt | bge | bltu | bgeu =>
    obtain ⟨v, rfl⟩ := setPc_of_branch_next h
    exact sameBut_setPc s v
  | jal | jalr =>
    cases h
    exact sameBut_jump s _ _ _
  | wsp => cases h; exact sameBut_setSp s _
  | wpsr => cases h; exact sameBut_setPsr s _
  | wtlr => cases h; exact sameBut_setTlr s _
  | wthr => cases h; exact sameBut_setThr s _
  | wppc => cases h; exact sameBut_setPpc s _
  | wppsr => cases h; exact sameBut_setPpsr s _
  | wtr => cases h; exact sameBut_setTr s _
  | rtr =>
    cases h
    exact ((sameBut_setThr s _).mono (by simp [writtenParts])).trans
      ((sameBut_setTlr _ _).mono (by simp [writtenParts]))
  | rfi => cases h; exact sameBut_returnFromTrap s
  | trap => cases h; exact sameBut_enterTrap s
  | _ => cases h; exact sameBut_setReg s _ _

/-- An instruction that completes and changes a part has that part among the parts it may write. -/
theorem mem_writtenParts_of_part_ne {i : Instr} {s t : State} {p : Part} (h : exec i s = .next t)
    (hne : t.part p ≠ s.part p) : p ∈ writtenParts i s :=
  not_not.1 fun hp => hne (instructionFrames i s t h p hp)

/-- The access summary of R21, read off the parts each instruction may write. -/
theorem controlRegister_writers (i : Instr) (s : State) :
    (.psr ∈ writtenParts i s → i = .trap ∨ i = .rfi ∨ ∃ r, i = .wpsr r) ∧
    (.ppc ∈ writtenParts i s → i = .trap ∨ ∃ r, i = .wppc r) ∧
    (.ppsr ∈ writtenParts i s → i = .trap ∨ ∃ r, i = .wppsr r) ∧
    (.sp ∈ writtenParts i s → ∃ r, i = .wsp r ∨ i = .push r ∨ i = .pop r) ∧
    (.tr ∈ writtenParts i s → i = .wtr) ∧
    (.tlr ∈ writtenParts i s → i = .rtr ∨ ∃ r, i = .wtlr r) ∧
    (.thr ∈ writtenParts i s → i = .rtr ∨ ∃ r, i = .wthr r) := by
  cases i <;> simp [writtenParts]

/-- Settles O54: fetch moves only `pc`, so what changed was written by the instruction. -/
theorem controlRegisterWriters : Obligations.ControlRegisterWriters := by
  intro s t h
  obtain ⟨i, hfetch, hexec⟩ := step_next_inv h
  obtain ⟨hpsr, hppc, hppsr, hsp, htr, htlr, hthr⟩ := controlRegister_writers i (s.setPc (s.pc + 2))
  have hwritten (p : Part) := mem_writtenParts_of_part_ne (p := p) hexec
  exact ⟨i, _, hfetch, fun hne => hpsr (hwritten .psr (mt BitVec.eq_of_toNat_eq hne)),
    fun hne => hppc (hwritten .ppc (mt BitVec.eq_of_toNat_eq hne)),
    fun hne => hppsr (hwritten .ppsr (mt BitVec.eq_of_toNat_eq hne)),
    fun hne => hsp (hwritten .sp (mt BitVec.eq_of_toNat_eq hne)),
    fun hne => htr (hwritten .tr (mt BitVec.eq_of_toNat_eq hne)),
    fun hne => htlr (hwritten .tlr (mt BitVec.eq_of_toNat_eq hne)),
    fun hne => hthr (hwritten .thr (mt BitVec.eq_of_toNat_eq hne))⟩

/-! ## The canonical form of memory (log entry 19) -/

/-- Every instruction that completes keeps memory canonical: the stores and `push` by a memory write, the others because
they leave memory alone. -/
theorem exec_canonical {i : Instr} {s t : State} (hs : MemoryCanonical s) (h : exec i s = .next t) :
    MemoryCanonical t := by
  cases i with
  | sh => exact memWriteByte_canonical hs (ok_of_orStop_next h)
  | sw => exact memWriteWord_canonical hs (ok_of_orStop_next h)
  | push => exact memWriteWord_canonical (s := s.setSp (s.sp - 2)) hs (ok_of_orStop_next h)
  | lh | lhu | lw | pop =>
    obtain ⟨_, -, hload⟩ := orStop_next h
    cases hload
    exact hs
  | beq | bnq | blt | bge | bltu | bgeu =>
    obtain ⟨v, rfl⟩ := setPc_of_branch_next h
    exact hs
  | _ => cases h; exact hs

/-- Settles O56: the fetch moves only `pc`, and the instruction keeps the form. -/
theorem stepKeepsMemoryCanonical : Obligations.StepKeepsMemoryCanonical := by
  intro s t hs h
  obtain ⟨i, -, hexec⟩ := step_next_inv h
  exact exec_canonical (s := s.setPc (s.pc + 2)) hs hexec

/-- The memory of two images that fit: RAM's cells lie below ROM's. -/
theorem memoryOf_wf {c : Config.Images} (hrom : c.rom.length ≤ 32768) (hram : c.ram.length ≤ 32768) :
    Memory.wf (memoryOf c) = true := by
  have hbelow : ∀ cell ∈ Memory.ofImage Region.ram.base c.ram, cell.1 < Region.rom.base := fun cell hcell => by
    have hlt := (Memory.mem_ofImage _ _ cell hcell).2
    simp only [Region.base] at hlt ⊢
    omega
  have hlow : Region.ram.base + c.ram.length ≤ 65536 := by simp only [Region.base]; omega
  have hhigh : Region.rom.base + c.rom.length ≤ 65536 := by simp only [Region.base]; omega
  exact Memory.wfFrom_append (Memory.wfFrom_ofImage _ _ hhigh) (Nat.zero_le _) hbelow (Memory.wfFrom_ofImage _ _ hlow)

/-- Settles O57: empty memory is canonical, and so are two images laid out in their regions. -/
theorem constructedMemoryCanonical : Obligations.ConstructedMemoryCanonical := by
  refine ⟨Memory.wf_nil, fun c s h => ?_⟩
  obtain ⟨hrom, hram, rfl⟩ := (construct_eq_ok_iff c s).1 h
  exact memoryOf_wf hrom hram

/-! ## Construction (R27, R33) -/

/-- Settles O3: what `construct` answers is the reset state, whose registers are zero for every memory. -/
theorem resetZeroRegisters : Obligations.ResetZeroRegisters := by
  intro c s h
  obtain ⟨-, -, rfl⟩ := (construct_eq_ok_iff c s).1 h
  refine ⟨fun r => ?_, rfl, rfl, rfl, rfl, rfl, rfl⟩
  cases r <;> rfl

/-- Settles O5, by whether each image fits. -/
theorem oversizeImageRefused : Obligations.OversizeImageRefused := by
  intro c
  refine ⟨?_, fun hrom hram => ?_, fun hram hrom => ?_⟩
  · simp [construct_eq_ok_iff]
  · rw [construct, (imageFits_iff c.ram).2 hram, Bool.eq_false_iff.2 (mt (imageFits_iff c.rom).1 (not_le.2 hrom))]
  · rw [construct, (imageFits_iff c.rom).2 hrom, Bool.eq_false_iff.2 (mt (imageFits_iff c.ram).1 (not_le.2 hram))]

/-! ## Where an instruction stops, and the state it leaves (R146, R150 to R152; decision D10) -/

/-- The one way to stop at an access behind the address check, with nothing after it that can stop. -/
theorem guarded_access_fault {α : Type} {s : State} {a : Word} {x : α} {go : α → Result} {f : Fault}
    (h : orStop (if AccessOk a then .ok x else invalidAccess s a) go = .fault f) (hgo : ∀ v, go v ≠ .fault f) :
    ¬ AccessOk a ∧ f = .invalidAddress a s := by
  refine ⟨fun ha => hgo x ?_, fault_of_guarded_access h hgo⟩
  rwa [if_pos ha, orStop_ok] at h

/-- What a stop in execution is: `InvalidAddress` of an address that cannot be accessed, in one of the seven instructions
that access memory, with nothing but `sp` changed; all but `push` leave `sp` as it was. -/
theorem exec_fault_inv {i : Instr} {s : State} {f : Fault} (h : exec i s = .fault f) :
    accessesMemory i = true ∧ ∃ a sp, ¬ AccessOk a ∧ f = .invalidAddress a (s.setSp sp) := by
  cases i with
  | lh | lhu | lw | sh | sw | pop =>
    exact ⟨rfl, _, s.sp, guarded_access_fault h fun v hv => by cases hv⟩
  | push => exact ⟨rfl, _, s.sp - 2, guarded_access_fault h fun v hv => by cases hv⟩
  | _ => cases h

/-- Settles O27: the two addresses are those the address check refuses. -/
theorem onlyMemoryInstructionsStop : Obligations.OnlyMemoryInstructionsStop := by
  intro i s f h
  obtain ⟨hmem, a, sp, ha, rfl⟩ := exec_fault_inv h
  exact ⟨hmem, a, (not_accessOk_iff a).1 ha, rfl⟩

/-- What a step that stops is: a stop of the fetch, or one of the instruction it fetched. -/
theorem step_fault_inv {s : State} {f : Fault} (h : step s = .fault f) :
    f = .debugInterrupt s ∨ (∃ w, f = .unknownInstruction w (s.setPc (s.pc + 2))) ∨
      (¬ AccessOk s.pc ∧ f = .invalidAddress s.pc s) ∨
      ∃ a sp, ¬ AccessOk a ∧ f = .invalidAddress a ((s.setPc (s.pc + 2)).setSp sp) := by
  obtain hf | ⟨w, hf⟩ | ⟨hpc, hf⟩ | ⟨i, hf⟩ := fetch_cases s
  · rw [step_of_fetch_error hf] at h
    cases h
    exact .inl rfl
  · rw [step_of_fetch_error hf] at h
    cases h
    exact .inr (.inl ⟨w, rfl⟩)
  · rw [step_of_fetch_error hf] at h
    cases h
    exact .inr (.inr (.inl ⟨hpc, rfl⟩))
  · rw [step_of_fetch_ok hf] at h
    exact .inr (.inr (.inr (exec_fault_inv h).2))

/-- Settles O25: no step is refused, and the stops are those of `step_fault_inv`. -/
theorem stepCompletesOrStops : Obligations.StepCompletesOrStops := by
  intro s
  cases h : step s with
  | next t => exact .inl ⟨t, rfl⟩
  | refused r => exact absurd h (step_ne_refused s r)
  | fault f =>
    obtain rfl | ⟨w, rfl⟩ | ⟨ha, rfl⟩ | ⟨a, sp, ha, rfl⟩ := step_fault_inv h
    · exact .inr (.inl rfl)
    · exact .inr (.inr (.inl ⟨w, rfl⟩))
    · exact .inr (.inr (.inr ⟨_, _, rfl, (not_accessOk_iff _).1 ha⟩))
    · exact .inr (.inr (.inr ⟨_, _, rfl, (not_accessOk_iff _).1 ha⟩))

/-- Settles O26: a stop of the fetch moves `pc` at most, one of the instruction `sp` besides. -/
theorem stopsSaveNothing : Obligations.StopsSaveNothing := by
  intro s f h
  have hpc : SameBut [.pc, .sp] s (s.setPc (s.pc + 2)) := (sameBut_setPc s _).mono (by simp)
  obtain rfl | ⟨w, rfl⟩ | ⟨-, rfl⟩ | ⟨a, sp, -, rfl⟩ := step_fault_inv h
  · exact ⟨SameBut.refl _ s, .inl rfl⟩
  · exact ⟨hpc, .inr rfl⟩
  · exact ⟨SameBut.refl _ s, .inl rfl⟩
  · exact ⟨hpc.trans ((sameBut_setSp _ sp).mono (by simp)), .inr rfl⟩

/-- Settles O28: the five at the effective address, `push` at the decremented `sp`, `pop` at `sp`. -/
theorem executionInvalidAddressState : Obligations.ExecutionInvalidAddressState := by
  refine ⟨fun s rd rs imm hea => ?_, fun s rd hsp => ?_, fun s rd hsp => ?_⟩
  · have h := (not_accessOk_iff _).2 hea
    exact ⟨exec_lh_stop s rd rs imm h, exec_lhu_stop s rd rs imm h, exec_lw_stop s rd rs imm h,
      exec_sh_stop s rd rs imm h, exec_sw_stop s rd rs imm h⟩
  · refine exec_push_stop s rd ((not_accessOk_iff _).2 ?_)
    bv_omega
  · exact exec_pop_stop s rd ((not_accessOk_iff _).2 hsp)

/-- Settles O24, by the fetch of a word the decoder rejects. -/
theorem illegalWordStops : Obligations.IllegalWordStops := by
  rintro s w h1 h2 rfl hw
  exact step_of_fetch_error (fetch_unknown s _ (accessOk_of_ne h1 h2) hw)

/-! ## The fetch after a store (R48) -/

/-- Settles O14: the store moves no `pc`, so the next fetch reads the stored word, through the same address check. -/
theorem nextFetchSeesStore : Obligations.NextFetchSeesStore := by
  intro s t rd rs imm i h hpc hi
  obtain ⟨hok, rfl⟩ := (memWriteWord_eq_ok_iff _ _ _ _).1 (ok_of_orStop_next h)
  have hfetch := fetch_of_memReadWord (memReadWord_setWord s (s.getReg rd) hok) hi
  rw [← hpc] at hfetch ⊢
  exact step_of_fetch_ok hfetch

/-! ## The status register (R17, R161, R163; decisions D15 and D19) -/

/-- An access and what follows it do not look at `psr`, if neither its result nor its continuation does. -/
theorem guarded_access_withPsr {α : Type} {s : State} {a v : Word} {x x' : α} {go go' : α → Result}
    (h : go' x' = resultWithPsr v (go x)) :
    orStop (if AccessOk a then .ok x' else invalidAccess (s.setPsr v) a) go' =
      resultWithPsr v (orStop (if AccessOk a then .ok x else invalidAccess s a) go) := by
  split_ifs
  · exact h
  · rfl

theorem branch_withPsr (cond : Word → Word → Bool) (rd rs : Reg) (imm : Imm5) (s : State) (v : Word) :
    branch cond rd rs imm (s.setPsr v) = resultWithPsr v (branch cond rd rs imm s) := by
  rw [branch, branch, State.setPsr_getReg, State.setPsr_getReg]
  split_ifs <;> rfl

/-- An instruction that does not touch `psr` answers the same with any other. -/
theorem exec_withPsr {i : Instr} (s : State) (v : Word) (hi : touchesPsr i = false) :
    exec i (s.setPsr v) = resultWithPsr v (exec i s) := by
  cases i with
  | lh | lhu | lw | sh | sw | pop => exact guarded_access_withPsr rfl
  | push => exact guarded_access_withPsr (s := s.setSp (s.sp - 2)) rfl
  | beq | bnq | blt | bge | bltu | bgeu => exact branch_withPsr _ _ _ _ s v
  | rpsr | wpsr | rfi | trap => cases hi
  | _ => rfl

/-- A fetch that answers an instruction read its word at a valid address, and advanced `pc`. -/
theorem fetch_ok_inv {s u : State} {i : Instr} (h : fetch s = .ok (i, u)) :
    AccessOk s.pc ∧ decodeWord (wordOfBytes (s.byteAt s.pc) (s.byteAt (s.pc + 1))) = .ok i ∧
      u = s.setPc (s.pc + 2) := by
  by_cases ha : AccessOk s.pc
  · cases hd : decodeWord (wordOfBytes (s.byteAt s.pc) (s.byteAt (s.pc + 1))) with
    | ok j =>
      rw [fetch_instr s j ha hd] at h
      cases h
      exact ⟨ha, rfl, rfl⟩
    | error e =>
      obtain ⟨h0, -⟩ | ⟨-, rfl⟩ := decodeWord_error hd
      · rw [fetch_zero s ha h0] at h
        cases h
      · rw [fetch_unknown s _ ha hd] at h
        cases h
  · rw [fetch_invalid s ha] at h
    cases h

/-- Settles O55: no meaning but those of the four reads or writes `psr`, two of those overwrite it, and the fetch reads
`pc` and memory. -/
theorem psrChangesNoBehaviour : Obligations.PsrChangesNoBehaviour := by
  refine ⟨fun i s v => exec_withPsr s v, fun _ _ _ => rfl, fun _ _ => rfl, fun s u v i h => ?_⟩
  obtain ⟨ha, hd, rfl⟩ := fetch_ok_inv h
  exact fetch_instr (s.setPsr v) i ha hd

/-! ## Runs (R182, R186) -/

/-- No state after one to `n` steps has `pc` at the stop address. -/
def NoStopWithin (stopAt : Option Word) (n : Nat) (s : State) : Prop :=
  ∀ j v, 1 ≤ j → j ≤ n → stepsTo j s v → stopAt ≠ some v.pc

section
variable {stopAt : Option Word} {s : State}

theorem NoStopWithin.zero : NoStopWithin stopAt 0 s := fun _ _ h1 h0 => by omega

theorem NoStopWithin.succ {t : State} {n : Nat} (hstep : step s = .next t) (hne : stopAt ≠ some t.pc)
    (h : NoStopWithin stopAt n t) : NoStopWithin stopAt (n + 1) s := by
  rintro (_ | _ | j) v h1 hj hsteps
  · omega
  · obtain ⟨u, hu, rfl⟩ := hsteps
    cases hstep.symm.trans hu
    exact hne
  · obtain ⟨u, hu, hrest⟩ := hsteps
    cases hstep.symm.trans hu
    exact h (j + 1) v (by omega) (by omega) hrest

/-- What a run with fuel does first: it stops, it completes a step to the stop address, or it goes on from there. -/
theorem run_succ_cases (stopAt : Option Word) (fuel : Nat) (s : State) :
    (∃ f, step s = .fault f ∧ run stopAt (fuel + 1) s = .stopped f) ∨
    (∃ t, step s = .next t ∧ stopAt = some t.pc ∧ run stopAt (fuel + 1) s = .reachedStopAddress t) ∨
    (∃ t, step s = .next t ∧ stopAt ≠ some t.pc ∧ run stopAt (fuel + 1) s = run stopAt fuel t) := by
  rw [run]
  cases h : step s with
  | fault f => exact .inl ⟨f, rfl, rfl⟩
  | refused r => exact absurd h (step_ne_refused s r)
  | next t =>
    by_cases ht : stopAt = some t.pc
    · exact .inr (.inl ⟨t, rfl, ht, if_pos ht⟩)
    · exact .inr (.inr ⟨t, rfl, ht, if_neg ht⟩)

variable {fuel : Nat}

theorem run_reached {u : State} (h : run stopAt fuel s = .reachedStopAddress u) :
    stopAt = some u.pc ∧ ∃ k, k < fuel ∧ stepsTo (k + 1) s u ∧ NoStopWithin stopAt k s := by
  induction fuel generalizing s with
  | zero => cases h
  | succ fuel ih =>
    obtain ⟨f, -, hrun⟩ | ⟨t, hstep, hpc, hrun⟩ | ⟨t, hstep, hne, hrun⟩ := run_succ_cases stopAt fuel s
    · cases hrun.symm.trans h
    · cases hrun.symm.trans h
      exact ⟨hpc, 0, Nat.succ_pos fuel, ⟨u, hstep, rfl⟩, .zero⟩
    · obtain ⟨hpc, k, hk, hsteps, hno⟩ := ih (hrun.symm.trans h)
      exact ⟨hpc, k + 1, Nat.succ_lt_succ hk, ⟨t, hstep, hsteps⟩, .succ hstep hne hno⟩

theorem run_stopped {f : Fault} (h : run stopAt fuel s = .stopped f) :
    ∃ k u, k < fuel ∧ stepsTo k s u ∧ step u = .fault f ∧ NoStopWithin stopAt k s := by
  induction fuel generalizing s with
  | zero => cases h
  | succ fuel ih =>
    obtain ⟨g, hstep, hrun⟩ | ⟨t, -, -, hrun⟩ | ⟨t, hstep, hne, hrun⟩ := run_succ_cases stopAt fuel s
    · cases hrun.symm.trans h
      exact ⟨0, s, Nat.succ_pos fuel, rfl, hstep, .zero⟩
    · cases hrun.symm.trans h
    · obtain ⟨k, u, hk, hsteps, hstop, hno⟩ := ih (hrun.symm.trans h)
      exact ⟨k + 1, u, Nat.succ_lt_succ hk, ⟨t, hstep, hsteps⟩, hstop, .succ hstep hne hno⟩

theorem run_outOfFuel {u : State} (h : run stopAt fuel s = .outOfFuel u) :
    stepsTo fuel s u ∧ NoStopWithin stopAt fuel s := by
  induction fuel generalizing s with
  | zero =>
    cases h
    exact ⟨rfl, .zero⟩
  | succ fuel ih =>
    obtain ⟨f, -, hrun⟩ | ⟨t, -, -, hrun⟩ | ⟨t, hstep, hne, hrun⟩ := run_succ_cases stopAt fuel s
    · cases hrun.symm.trans h
    · cases hrun.symm.trans h
    · obtain ⟨hsteps, hno⟩ := ih (hrun.symm.trans h)
      exact ⟨⟨t, hstep, hsteps⟩, .succ hstep hne hno⟩

theorem run_ne_refused (r : Refusal) : run stopAt fuel s ≠ .refused r := by
  induction fuel generalizing s with
  | zero => nofun
  | succ fuel ih =>
    obtain ⟨f, -, hrun⟩ | ⟨t, -, -, hrun⟩ | ⟨t, -, -, hrun⟩ := run_succ_cases stopAt fuel s <;> rw [hrun]
    · nofun
    · nofun
    · exact ih

end

/-- Settles O58, one outcome of a run each. -/
theorem runEndsAtFirstStopOrAddress : Obligations.RunEndsAtFirstStopOrAddress := by
  intro stopAt fuel s
  refine ⟨fun u h => ?_, fun f h => run_stopped h, fun u h => run_outOfFuel h, fun r => run_ne_refused r⟩
  obtain ⟨hpc, k, hk, hsteps, hno⟩ := run_reached h
  exact ⟨hpc, k + 1, Nat.succ_pos k, hk, hsteps, fun j v h1 hj => hno j v h1 (Nat.le_of_lt_succ hj)⟩

/-! ## R class and immediates (R70 to R85) -/

/-- Settles O20: the examples lie in the R, I5, I8, C1 and C2 classes; the last three words are special cases. -/
theorem exampleWordsDecode : Obligations.ExampleWordsDecode :=
  ⟨rfl, rfl, rfl, rfl, rfl, rfl, rfl, rfl, rfl, rfl⟩

/-- Settles O29: the value written is that of the source, read before the write. -/
theorem movCopiesSource : Obligations.MovCopiesSource := fun s rd _ => ⟨_, rfl, writesReg_setReg rd _ s⟩

theorem toNat_sub_word (a b : Word) : (a - b).toNat = (a.toNat + 65536 - b.toNat) % 65536 := by bv_omega

/-- Settles O30: sum and difference of words are those modulo 2^16. -/
theorem addSubModulo : Obligations.AddSubModulo := fun s rd _ =>
  ⟨⟨_, _, rfl, writesReg_setReg rd _ s, BitVec.toNat_add _ _⟩,
    ⟨_, _, rfl, writesReg_setReg rd _ s, toNat_sub_word _ _⟩⟩

/-- Settles O31: the operations of words are those of their bits. -/
theorem bitwiseOperations : Obligations.BitwiseOperations := fun s rd _ =>
  ⟨⟨_, _, rfl, writesReg_setReg rd _ s, fun _ => BitVec.getLsbD_and⟩,
    ⟨_, _, rfl, writesReg_setReg rd _ s, fun _ => BitVec.getLsbD_or⟩,
    ⟨_, _, rfl, writesReg_setReg rd _ s, fun _ => BitVec.getLsbD_xor⟩⟩

theorem toNat_shiftLeft_word (x : Word) (n : Nat) : (x <<< n).toNat = x.toNat * 2 ^ n % 65536 := by
  rw [BitVec.toNat_shiftLeft, Nat.shiftLeft_eq]

theorem toNat_ushiftRight_word (x : Word) (n : Nat) : (x >>> n).toNat = x.toNat / 2 ^ n := by
  rw [BitVec.toNat_ushiftRight, Nat.shiftRight_eq_div_pow]

theorem getLsbD_sshiftRight_word (x : Word) (n : Nat) {k : Nat} (hk : k < 16) :
    (x.sshiftRight n).getLsbD k = if k + n < 16 then x.getLsbD (k + n) else x.getLsbD 15 := by
  rw [BitVec.getLsbD_sshiftRight, BitVec.msb_eq_getLsbD_last, Nat.add_comm n k]
  simp [Nat.not_le.2 hk]

theorem toInt_sshiftRight_word (x : Word) (n : Nat) : (x.sshiftRight n).toInt = x.toInt / (2 ^ n : Int) := by
  rw [BitVec.toInt_sshiftRight, Int.shiftRight_eq_div_pow]
  norm_cast

/-- Settles O32: the count is the low four bits of the source, the value that of the shift by it. -/
theorem shiftResults : Obligations.ShiftResults := fun s rd _ =>
  ⟨⟨_, _, rfl, writesReg_setReg rd _ s, toNat_shiftLeft_word _ _⟩,
    ⟨_, _, rfl, writesReg_setReg rd _ s, toNat_ushiftRight_word _ _⟩,
    ⟨_, _, rfl, writesReg_setReg rd _ s, fun _ hk => getLsbD_sshiftRight_word _ _ hk, toInt_sshiftRight_word _ _⟩⟩

/-- Settles O33: with `rd = rs` the register is subtracted from itself; otherwise the source is the same in both. -/
theorem addThenSubRestores : Obligations.AddThenSubRestores := by
  intro s rd rs
  refine ⟨_, _, rfl, rfl, (sameBut_setReg s rd _).trans (sameBut_setReg _ rd _), ?_, ?_⟩
  · rintro rfl
    exact ⟨rfl, rfl⟩
  · rw [State.getReg_setReg]
    by_cases h0 : rd = .x0
    · subst h0
      simp
    · by_cases hrs : rs = rd
      · simp [h0, hrs]
      · simp [h0, hrs, Ne.symm hrs, State.getReg_setReg]

theorem zext5_toNat (imm : Imm5) : (zext5 imm).toNat = imm.toNat := BitVec.toNat_setWidth_of_le (by decide)

/-- Settles O34: `zext_5` keeps the value of the immediate. -/
theorem addiSubiModulo : Obligations.AddiSubiModulo := by
  intro s rd rs imm
  refine ⟨⟨_, _, rfl, writesReg_setReg rd _ s, ?_⟩, ⟨_, _, rfl, writesReg_setReg rd _ s, ?_⟩⟩
  · rw [BitVec.toNat_add, zext5_toNat]
  · rw [toNat_sub_word, zext5_toNat]

/-! ## Jumps (R95, R96) -/

/-- Settles O38: the link does not move `pc`, from which the target is computed. -/
theorem jalLinksAndJumps : Obligations.JalLinksAndJumps := fun s rd _ =>
  ⟨_, rfl, (writesReg_setReg rd s.pc s).1, rfl, sameBut_jump s rd _ _⟩

/-- Settles O39: the base is read after the link is written. -/
theorem jalrLinksThenJumps : Obligations.JalrLinksThenJumps := by
  intro s rd rs imm
  refine ⟨_, rfl, (writesReg_setReg rd s.pc s).1, ?_, sameBut_jump s rd _ _⟩
  rw [State.setPc_pc, effAddr, sext5, State.getReg_setReg]
  simp only [eq_comm]

/-! ## Loads and stores (R102 to R106) -/

theorem sext8_toInt (b : Byte) : (sext8 b).toInt = b.toInt := BitVec.toInt_signExtend_of_le (by decide)

/-- Settles O41: the two extensions keep the signed and the unsigned value of the byte. -/
theorem loadResults : Obligations.LoadResults := by
  intro s rd rs imm h1 h2
  have h := accessOk_of_ne h1 h2
  exact ⟨⟨_, _, exec_lh_ok s rd rs imm h, writesReg_setReg rd _ s, sext8_toInt _⟩,
    ⟨_, _, exec_lhu_ok s rd rs imm h, writesReg_setReg rd _ s, zext8_toNat _⟩,
    ⟨_, _, exec_lw_ok s rd rs imm h, writesReg_setReg rd _ s, wordOfBytes_toNat _ _⟩⟩

/-- Settles O42: `sh` stores one byte, `sw` the two of `setWord`. -/
theorem storeResults : Obligations.StoreResults := by
  intro s rd rs imm h1 h2
  have h := accessOk_of_ne h1 h2
  refine ⟨⟨_, exec_sh_ok s rd rs imm h, ?_, sameBut_setByte s _ _⟩,
    ⟨s.setWord (effAddr s rs imm) (s.getReg rd), exec_sw_ok s rd rs imm h, ?_, ?_, sameBut_setWord s _ _⟩⟩
  · rw [State.byteAt_setByte, if_pos rfl, lowByte_toNat]
  · rw [State.byteAt_setWord_low, lowByte_toNat]
  · rw [State.byteAt_setWord_high, highByte_toNat]

/-! ## Stack (R115, R116, R131) -/

theorem exec_push_eq_setWord (s : State) (rd : Reg) (h : AccessOk (s.sp - 2)) :
    exec (.push rd) s = .next ((s.setSp (s.sp - 2)).setWord (s.sp - 2) (s.getReg rd)) := exec_push_ok s rd h

/-- Settles O44: `push` stores a word at the decremented `sp`. -/
theorem pushResult : Obligations.PushResult := by
  intro s rd h1 h2
  have hsecond : s.sp - 1 = s.sp - 2 + 1 := by bv_omega
  refine ⟨_, exec_push_eq_setWord s rd (accessOk_of_ne h1 h2), rfl, ?_, ?_, sameBut_setSp_setWord s _⟩
  · rw [State.byteAt_setWord_low, lowByte_toNat]
  · rw [hsecond, State.byteAt_setWord_high, highByte_toNat]

/-- `pop` writes the word a word read at `sp` gives. -/
theorem exec_pop_of_read {s : State} {w : Word} (rd : Reg) (h : memReadWord s s.sp = .ok w) :
    exec (.pop rd) s = .next ((s.setReg rd w).setSp (s.sp + 2)) := by
  rw [exec, execPop, h, orStop_ok]
  rfl

/-- Settles O45: the word is read at the old `sp`, which moves whatever `rd` is. -/
theorem popResult : Obligations.PopResult := by
  intro s rd h1 h2
  have hexec := exec_pop_ok s rd (accessOk_of_ne h1 h2)
  exact ⟨_, _, hexec, rfl, (writesReg_setReg rd _ s).1, wordOfBytes_toNat _ _, instructionFrames _ _ _ hexec⟩

/-- Settles O46: `pop` reads the word `push` stored, at the `sp` it left. -/
theorem pushThenPop : Obligations.PushThenPop := by
  intro s rd rd2 h1 h2
  have h : AccessOk (s.sp - 2) := accessOk_of_ne (by bv_omega) (by bv_omega)
  have hread := memReadWord_setWord (s.setSp (s.sp - 2)) (s.getReg rd) h
  exact ⟨_, _, exec_push_eq_setWord s rd h, exec_pop_of_read rd2 hread, BitVec.sub_add_cancel _ _,
    (writesReg_setReg rd2 _ _).1⟩

/-! ## Control registers and the timer (R117 to R129, R137, R138) -/

/-- Settles O47: each is a write of `rd` with the register it names. -/
theorem readControlRegisters : Obligations.ReadControlRegisters := fun s rd =>
  ⟨⟨_, rfl, writesReg_setReg rd _ s⟩, ⟨_, rfl, writesReg_setReg rd _ s⟩, ⟨_, rfl, writesReg_setReg rd _ s⟩,
    ⟨_, rfl, writesReg_setReg rd _ s⟩, ⟨_, rfl, writesReg_setReg rd _ s⟩⟩

/-- Settles O48: each is the update of one control register, with its frame. -/
theorem writeControlRegisters : Obligations.WriteControlRegisters := fun s _ =>
  ⟨⟨_, rfl, rfl, sameBut_setSp s _⟩, ⟨_, rfl, rfl, sameBut_setPsr s _⟩, ⟨_, rfl, rfl, sameBut_setPpc s _⟩,
    ⟨_, rfl, rfl, sameBut_setPpsr s _⟩⟩

theorem timerHigh_toNat (tr : DWord) : (timerHigh tr).toNat = tr.toNat / 65536 := by
  have h := tr.isLt
  rw [timerHigh, BitVec.extractLsb'_toNat, Nat.shiftRight_eq_div_pow]
  omega

theorem timerLow_toNat (tr : DWord) : (timerLow tr).toNat = tr.toNat % 65536 := by
  rw [timerLow, BitVec.extractLsb'_toNat, Nat.shiftRight_zero]

theorem timer_append_toNat (hi lo : Word) : (hi ++ lo).toNat = 65536 * hi.toNat + lo.toNat := by
  rw [BitVec.toNat_append, ← Nat.shiftLeft_add_eq_or_of_lt lo.isLt, Nat.shiftLeft_eq, Nat.mul_comm]

/-- Settles O49: the six by their updates; the others by the access summary, which names the writers of the three
registers. -/
theorem timerStagingHalves : Obligations.TimerStagingHalves := by
  intro s rd
  refine ⟨⟨_, rfl, rfl, sameBut_setTlr s _⟩, ⟨_, rfl, rfl, sameBut_setThr s _⟩, ⟨_, rfl, writesReg_setReg rd _ s⟩,
    ⟨_, rfl, writesReg_setReg rd _ s⟩, ⟨_, rfl, timerHigh_toNat _, timerLow_toNat _, instructionFrames .rtr s _ rfl⟩,
    ⟨_, rfl, timer_append_toNat _ _, sameBut_setTr s _⟩, fun i t h hrtr hwtr hwtlr hwthr => ?_⟩
  obtain ⟨-, -, -, -, htr, htlr, hthr⟩ := controlRegister_writers i s
  have hframe := instructionFrames i s t h
  refine ⟨BitVec.eq_of_toNat_eq (hframe .tr (mt htr hwtr)), BitVec.eq_of_toNat_eq (hframe .tlr (mt htlr ?_)),
    BitVec.eq_of_toNat_eq (hframe .thr (mt hthr ?_))⟩
  · rintro (hi | ⟨r, hi⟩)
    · exact hrtr hi
    · exact hwtlr r hi
  · rintro (hi | ⟨r, hi⟩)
    · exact hrtr hi
    · exact hwthr r hi

end Sys2Proof.Machine
